-- ==== Sys2Proof/Word.lean ====
section
/-! DEFINITION. The machine's bit strings: the 32-bit word of registers and addresses, and the byte (R4, R30). -/

namespace Sys2Proof

/-- A general register's contents, an address, an instruction word: 32 bits (R4, R10, R50). -/
abbrev Word := BitVec 32

/-- The addressable unit of memory: 8 bits (R4, R30). -/
abbrev Byte := BitVec 8

end Sys2Proof
end

