-- ==== Sys2Proof/Config.lean ====
section
/-! DEFINITION. What the spec leaves open: the launch parameters of R5 and R24, their values at `State.reset`, and the
free values of DIV and DIVU. -/

namespace Sys2Proof

/-- A run of consecutive memory words: those at the byte addresses `4 * first`, `4 * (first + 1)`, …,
`4 * (first + count - 1)` (log 31). A set of word addresses (R5) is held as a list of these. -/
structure WordRange where
  first : Nat
  count : Nat
deriving DecidableEq, Repr

/-- `LOAD_USE`: what happens when the instruction after a load references the loaded register (R236, D16). -/
inductive LoadUse where
  | fault
  | newValue
deriving DecidableEq, Repr

/-- `HILO_RULE`: what happens when HI and LO are written within two instructions after MFHI or MFLO (R238, D17). -/
inductive HiloRule where
  | fault
  | ignore
deriving DecidableEq, Repr

/-- The launch parameters of R5, less `divS` and `modS` (log 9). The two addresses are multiples of 4, so each is
held as its upper 30 bits: a misaligned one cannot be written (U23, log 31). -/
structure Params where
  /-- `GPR0_IS_ZERO` (R11). -/
  gpr0IsZero : Bool
  /-- `RESET_PC` divided by 4 (R22). -/
  resetPcWord : BitVec 30
  /-- `EXC_HANDLER` divided by 4 (R206). -/
  excHandlerWord : BitVec 30
  /-- `TRAP_HALTS` (R212). -/
  trapHalts : Bool
  /-- `MEM_DOMAIN` (R43). -/
  memDomain : List WordRange
  /-- `TEXT_REGION` (R42). -/
  textRegion : List WordRange
  /-- `LOAD_USE` (R236). -/
  loadUse : LoadUse
  /-- `HILO_RULE` (R238). -/
  hiloRule : HiloRule
deriving DecidableEq, Repr

/-- `RESET_PC` (R22). -/
def Params.resetPc (p : Params) : Word := p.resetPcWord ++ 0#2

/-- `EXC_HANDLER`, the value the source calls `ExceptionHandler` (R206). -/
def Params.excHandler (p : Params) : Word := p.excHandlerWord ++ 0#2

namespace Config

/-- The draws of R8, R108 and R109: the values the spec leaves open. No body, so nothing can be proved of any of
them (log 8). -/
opaque draw : Nat → Word

/-- What a byte of memory that nothing has written reads as. DESIGN CHOICE, unsafe (log 6). -/
def unlistedByte : Byte := 0xA5#8

/-- What `GPR[1]` .. `GPR[31]`, HI and LO hold at `State.reset`; R22 leaves them unspecified and R23 says "it must not
pick zero". DESIGN CHOICE, unsafe (log 5). -/
def launchWord : Word := 0xA5A5A5A5#32

/-- The parameters at `State.reset`: the spec's recommended values where R5 gives one (log 2), DESIGN CHOICE for
`RESET_PC` and `EXC_HANDLER` (log 3), every word of the address space in `MEM_DOMAIN` and, no program being loaded
yet, an empty `TEXT_REGION` (log 4). -/
def resetParams : Params where
  gpr0IsZero := true
  resetPcWord := 0x4000#30
  excHandlerWord := 0x8000#30
  trapHalts := true
  memDomain := [⟨0, 2 ^ 30⟩]
  textRegion := []
  loadUse := .fault
  hiloRule := .fault

end Config

end Sys2Proof
end

