-- ==== Sys2Proof/Syntax.lean ====
section
/-! DEFINITION. The instructions of p32, one constructor per row of spec/opcode_table.json (R57), operands in the
order of the source's syntax lines (R63). -/

namespace Sys2Proof

/-- The number of a general register, 0 to 31 (R10). -/
abbrev Reg := Fin 32

/-- A constant shift amount, 0 to 31 (R130). -/
abbrev Shamt := Fin 32

/-- The 16-bit field `immediate` or `offset` of an I-format instruction (R52). -/
abbrev Imm := BitVec 16

/-- The 26-bit field `target` of a J-format instruction (R53). -/
abbrev Target := BitVec 26

inductive Instr where
  | sll (rd rt : Reg) (shamt : Shamt)
  | srl (rd rt : Reg) (shamt : Shamt)
  | sra (rd rt : Reg) (shamt : Shamt)
  | sllv (rd rt rs : Reg)
  | srlv (rd rt rs : Reg)
  | srav (rd rt rs : Reg)
  | jr (rs : Reg)
  | jalr (rd rs : Reg)
  | syscall
  | mfhi (rd : Reg)
  | mflo (rd : Reg)
  | mult (rs rt : Reg)
  | multu (rs rt : Reg)
  | div (rs rt : Reg)
  | divu (rs rt : Reg)
  | add (rd rs rt : Reg)
  | addu (rd rs rt : Reg)
  | sub (rd rs rt : Reg)
  | subu (rd rs rt : Reg)
  | and (rd rs rt : Reg)
  | or (rd rs rt : Reg)
  | xor (rd rs rt : Reg)
  | nor (rd rs rt : Reg)
  | slt (rd rs rt : Reg)
  | sltu (rd rs rt : Reg)
  | j (target : Target)
  | jal (target : Target)
  | beq (rt rs : Reg) (offset : Imm)
  | bne (rt rs : Reg) (offset : Imm)
  | addi (rt rs : Reg) (imm : Imm)
  | addiu (rt rs : Reg) (imm : Imm)
  | slti (rt rs : Reg) (imm : Imm)
  | sltiu (rt rs : Reg) (imm : Imm)
  | andi (rt rs : Reg) (imm : Imm)
  | ori (rt rs : Reg) (imm : Imm)
  | xori (rt rs : Reg) (imm : Imm)
  | lui (rt : Reg) (imm : Imm)
  | lb (rt : Reg) (offset : Imm) (base : Reg)
  | lw (rt : Reg) (offset : Imm) (base : Reg)
  | sb (rt : Reg) (offset : Imm) (base : Reg)
  | sw (rt : Reg) (offset : Imm) (base : Reg)
deriving DecidableEq, Repr

end Sys2Proof
end

