-- ==== Sys2Proof/Machine/State.lean ====
section
/-! DEFINITION. The state of p32 as plain data (R10 to R20), the reasons a step can stop, and the state after reset
(R22). -/

namespace Sys2Proof.Machine

/-- Memory as its listed bytes, in one canonical form: addresses strictly rising, no byte equal to what an unlisted
address reads as (`Memory.wf`). -/
structure Memory where
  cells : List Host.Cell
deriving DecidableEq, Repr

/-- Memory with nothing listed. -/
def Memory.empty : Memory := ⟨[]⟩

/-- The two architectural exceptions (R200, R201, R202): names, not numbers. -/
inductive Cause where
  | overflow
  | syscall
deriving DecidableEq, Repr

/-- The record of the last trap (R20, R205); no instruction can read it. -/
structure TrapRecord where
  cause : Cause
  epc : Word
  inDelaySlot : Bool
deriving DecidableEq, Repr

/-- The model faults of R213: stops for situations the source gives no meaning. All are safe: the model stops where a
real p32 might go on. R213's `UnwrittenRead` is not among them: this model takes R23's other reading (log 7). -/
inductive Fault where
  /-- raised by `step` when `pc` is not a multiple of 4 (R16); safe -/
  | unalignedFetch
  /-- raised by the fetch, LB, LW, SB and SW outside `MEM_DOMAIN` (R43); safe -/
  | unmappedAccess
  /-- raised by LB, LW, SB and SW inside `TEXT_REGION`, and by the fetch outside it (R42); safe -/
  | textAccess
  /-- raised by `step` when the fetched word is no instruction (R60); safe -/
  | reservedInstruction
  /-- raised by `step` for a branch or jump in a delay slot (R234); safe -/
  | branchInDelaySlot
  /-- raised by `step` for a reference to the register the previous instruction loaded (R236); safe -/
  | loadUseHazard
  /-- raised by `step` for a HI/LO writer within two instructions after MFHI or MFLO (R238); safe -/
  | hiLoHazard
deriving DecidableEq, Repr

/-- Why no step is taken though nothing is wrong. -/
inductive Refusal where
  /-- raised by `exec` for an instruction without a meaning; no arm does; safe -/
  | notModelled (mnemonic : String)
  /-- raised by `step` when a trap has ended the run (`TRAP_HALTS`, R212, R244); safe -/
  | runEnded
deriving DecidableEq, Repr

structure State where
  /-- `GPR[0]` .. `GPR[31]` (R10); read and written only through `State.readReg` and `State.writeReg` (R11). -/
  regs : Vector Word 32
  /-- The special register `HI` (R13). -/
  hi : Word
  /-- The special register `LO` (R13). -/
  lo : Word
  /-- The address of the instruction that executes in this step (R14). -/
  pc : Word
  /-- The address of the instruction that executes in the next step (R14). -/
  npc : Word
  /-- The instruction about to execute is in a delay slot (R20). -/
  ds : Bool
  /-- The target register of the preceding instruction, if that was LB or LW (R20). -/
  ldreg : Option Reg
  /-- How many of the next instructions are within the two that follow an MFHI or MFLO (R20). -/
  hlguard : Fin 3
  /-- The last trap taken (R20, R205). -/
  trap : Option TrapRecord
  /-- The one memory (R19). -/
  mem : Memory
  /-- The launch parameters (R5, R24, R231); no step changes them (log 1). -/
  params : Params
  /-- The model's own field: how many of `Config.draw`'s free values have been used (log 8). -/
  draws : Nat
deriving DecidableEq, Repr

/-- A launch state (R231): the parameters, `pc`, memory and register values the host supplies, `npc` behind `pc`, and the
bookkeeping clear. `pc` is `RESET_PC` after reset (R22), but the host may supply another. It is supplied divided by 4, so
that a misaligned one cannot be written, which is how such a launch is refused (U23, log 31). -/
def State.launch (params : Params) (pcWord : BitVec 30) (regs : Vector Word 32) (hi lo : Word) (mem : Memory) :
    State where
  regs := regs
  hi := hi
  lo := lo
  pc := pcWord ++ 0#2
  npc := pcWord ++ 0#2 + 4
  ds := false
  ldreg := none
  hlguard := 0
  trap := none
  mem := mem
  params := params
  draws := 0

/-- The state after reset (R22, R230), with the values this model names for what the spec leaves unspecified
(logs 2 to 6, 8). -/
def State.reset : State :=
  .launch Config.resetParams Config.resetParams.resetPcWord ((Vector.replicate 32 Config.launchWord).set 0 0#32)
    Config.launchWord Config.launchWord Memory.empty

end Sys2Proof.Machine
end

