-- ==== Sys2Proof/Machine/Flags.lean ====
section
/-! DEFINITION. p32 has no flags (R17); what other machines keep in flags it tests on the spot: the overflow of ADD,
ADDI and SUB (R100) and the outcome of a comparison (R140). -/

namespace Sys2Proof.Machine

/-- The 33-bit sum of R101. -/
def wideSum (a b : Word) : BitVec 33 := a.signExtend 33 + b.signExtend 33

/-- The 33-bit difference of R105. -/
def wideDifference (a b : Word) : BitVec 33 := a.signExtend 33 - b.signExtend 33

/-- `s[32] != s[31]` (R100): a 33-bit result that is no 32-bit two's-complement value. -/
def overflows (s : BitVec 33) : Bool := s.getLsbD 32 != s.getLsbD 31

/-- The 32-bit value 1 or 0 a comparison writes (R140). -/
def truthWord (b : Bool) : Word := if b then 1 else 0

end Sys2Proof.Machine
end

