-- ==== Sys2Proof/Decode.lean ====
section
/-! DEFINITION. Decoding a 32-bit instruction word, rejecting by name (R50 to R60); the encoder, written from the same
formats; and the match and mask of every row of R57. -/

namespace Sys2Proof

/-! ### The fields of a word (R50 to R54, R59) -/

/-- `op` = bits 31..26 (R50). -/
def opField (w : Word) : BitVec 6 := w.extractLsb' 26 6

/-- `rs` (`base` of a load or store) = bits 25..21 (R51, R52). -/
def rsField (w : Word) : Reg := (w.extractLsb' 21 5).toFin

/-- `rt` = bits 20..16 (R51, R52). -/
def rtField (w : Word) : Reg := (w.extractLsb' 16 5).toFin

/-- `rd` = bits 15..11 (R51). -/
def rdField (w : Word) : Reg := (w.extractLsb' 11 5).toFin

/-- `shamt` = bits 10..6 (R51, R54). -/
def shamtField (w : Word) : Shamt := (w.extractLsb' 6 5).toFin

/-- `funct` = bits 5..0 (R50). -/
def functField (w : Word) : BitVec 6 := w.extractLsb' 0 6

/-- `imm` or `offset` = bits 15..0 (R52). -/
def immField (w : Word) : Imm := w.extractLsb' 0 16

/-- `target` = bits 25..0 (R53). -/
def targetField (w : Word) : Target := w.extractLsb' 0 26

/-! ### The decoder -/

/-- Why a word is no instruction: the three kinds of reserved word of R60, and bytes that are fewer than a word. -/
inductive Reject where
  /-- an empty cell of the primary opcode matrix (R55) -/
  | unusedOpcode (op : BitVec 6)
  /-- an empty cell of the SPECIAL matrix (R56) -/
  | unusedFunction (funct : BitVec 6)
  /-- a listed opcode or function with a non-zero bit in a field shown as 0 (R54) -/
  | nonzeroField
  /-- fewer than four bytes -/
  | truncated
deriving DecidableEq, Repr

/-- The instruction, if the fields shown as 0 are 0 (R59, R60, D12). -/
def whenZero (zero : Bool) (i : Instr) : Except Reject Instr :=
  if zero then .ok i else .error .nonzeroField

/-- Words with `op` = 0 (R54, R56). -/
def decodeSpecial (w : Word) : Except Reject Instr :=
  let rs := rsField w
  let rt := rtField w
  let rd := rdField w
  let sh := shamtField w
  let threeReg := sh == 0
  let constShift := rs == 0
  let mulDiv := rd == 0 && sh == 0
  let move := rs == 0 && rt == 0 && sh == 0
  match functField w with
  | 0#6 => whenZero constShift (.sll rd rt sh)
  | 2#6 => whenZero constShift (.srl rd rt sh)
  | 3#6 => whenZero constShift (.sra rd rt sh)
  | 4#6 => whenZero threeReg (.sllv rd rt rs)
  | 6#6 => whenZero threeReg (.srlv rd rt rs)
  | 7#6 => whenZero threeReg (.srav rd rt rs)
  | 8#6 => whenZero (rt == 0 && rd == 0 && sh == 0) (.jr rs)
  | 9#6 => whenZero (rt == 0 && sh == 0) (.jalr rd rs)
  | 12#6 => whenZero (rs == 0 && rt == 0 && rd == 0 && sh == 0) .syscall
  | 16#6 => whenZero move (.mfhi rd)
  | 18#6 => whenZero move (.mflo rd)
  | 24#6 => whenZero mulDiv (.mult rs rt)
  | 25#6 => whenZero mulDiv (.multu rs rt)
  | 26#6 => whenZero mulDiv (.div rs rt)
  | 27#6 => whenZero mulDiv (.divu rs rt)
  | 32#6 => whenZero threeReg (.add rd rs rt)
  | 33#6 => whenZero threeReg (.addu rd rs rt)
  | 34#6 => whenZero threeReg (.sub rd rs rt)
  | 35#6 => whenZero threeReg (.subu rd rs rt)
  | 36#6 => whenZero threeReg (.and rd rs rt)
  | 37#6 => whenZero threeReg (.or rd rs rt)
  | 38#6 => whenZero threeReg (.xor rd rs rt)
  | 39#6 => whenZero threeReg (.nor rd rs rt)
  | 42#6 => whenZero threeReg (.slt rd rs rt)
  | 43#6 => whenZero threeReg (.sltu rd rs rt)
  | f => .error (.unusedFunction f)

/-- `Decode(w)` (R59): the instruction a word stands for, or the reason it is reserved (R60). -/
def decode (w : Word) : Except Reject Instr :=
  let rs := rsField w
  let rt := rtField w
  let imm := immField w
  match opField w with
  | 0#6 => decodeSpecial w
  | 2#6 => .ok (.j (targetField w))
  | 3#6 => .ok (.jal (targetField w))
  | 4#6 => .ok (.beq rt rs imm)
  | 5#6 => .ok (.bne rt rs imm)
  | 8#6 => .ok (.addi rt rs imm)
  | 9#6 => .ok (.addiu rt rs imm)
  | 10#6 => .ok (.slti rt rs imm)
  | 11#6 => .ok (.sltiu rt rs imm)
  | 12#6 => .ok (.andi rt rs imm)
  | 13#6 => .ok (.ori rt rs imm)
  | 14#6 => .ok (.xori rt rs imm)
  | 15#6 => whenZero (rs == 0) (.lui rt imm)
  | 32#6 => .ok (.lb rt imm rs)
  | 35#6 => .ok (.lw rt imm rs)
  | 40#6 => .ok (.sb rt imm rs)
  | 43#6 => .ok (.sw rt imm rs)
  | op => .error (.unusedOpcode op)

/-- Four bytes as a word, the first byte (lowest address) most significant (R33, R34). -/
def wordOfBytes (b0 b1 b2 b3 : Byte) : Word := b0 ++ b1 ++ b2 ++ b3

/-- Byte `k` of a word in memory order: bits `31 - 8k .. 24 - 8k` (R33). -/
def byteOfWord (w : Word) (k : Nat) : Byte := w.extractLsb' (24 - 8 * k) 8

/-- A word's bytes, lowest address first (R33). -/
def bytesOfWord (w : Word) : List Byte := [byteOfWord w 0, byteOfWord w 1, byteOfWord w 2, byteOfWord w 3]

/-- Decoding from a list of bytes: the instruction and the bytes after it. Every instruction is one word (R50). -/
def decodeBytes : List Byte → Except Reject (Instr × List Byte)
  | b0 :: b1 :: b2 :: b3 :: rest => (decode (wordOfBytes b0 b1 b2 b3)).map (fun i => (i, rest))
  | _ => .error .truncated

/-- The instruction the decoder reads from a row's word as spec/opcode_table.json numbers its bits: the low `nbits`
bits of `w`, laid out as four big-endian bytes. -/
def decodeTableWord (nbits w : Nat) : Option Instr :=
  match decodeBytes (bytesOfWord (BitVec.ofNat 32 (w % 2 ^ nbits))) with
  | .ok (i, _) => some i
  | .error _ => none

/-! ### The encoder -/

/-- A register number or shift amount as its 5-bit field (R51). -/
def fieldBits (n : Fin 32) : BitVec 5 := BitVec.ofFin n

/-- R-format: `op` = 0, `rs`, `rt`, `rd`, `shamt`, `funct` (R51). -/
def encodeR (rs rt rd : Reg) (shamt : Shamt) (funct : BitVec 6) : Word :=
  0#6 ++ fieldBits rs ++ fieldBits rt ++ fieldBits rd ++ fieldBits shamt ++ funct

/-- I-format: `op`, `rs`, `rt`, `imm` (R52, log 11). -/
def encodeI (op : BitVec 6) (rs rt : Reg) (imm : Imm) : Word :=
  op ++ fieldBits rs ++ fieldBits rt ++ imm

/-- J-format: `op`, `target` (R53). -/
def encodeJ (op : BitVec 6) (target : Target) : Word := op ++ target

/-- The word of an instruction (R54 to R57). -/
def encode : Instr → Word
  | .sll rd rt shamt => encodeR 0 rt rd shamt 0
  | .srl rd rt shamt => encodeR 0 rt rd shamt 2
  | .sra rd rt shamt => encodeR 0 rt rd shamt 3
  | .sllv rd rt rs => encodeR rs rt rd 0 4
  | .srlv rd rt rs => encodeR rs rt rd 0 6
  | .srav rd rt rs => encodeR rs rt rd 0 7
  | .jr rs => encodeR rs 0 0 0 8
  | .jalr rd rs => encodeR rs 0 rd 0 9
  | .syscall => encodeR 0 0 0 0 12
  | .mfhi rd => encodeR 0 0 rd 0 16
  | .mflo rd => encodeR 0 0 rd 0 18
  | .mult rs rt => encodeR rs rt 0 0 24
  | .multu rs rt => encodeR rs rt 0 0 25
  | .div rs rt => encodeR rs rt 0 0 26
  | .divu rs rt => encodeR rs rt 0 0 27
  | .add rd rs rt => encodeR rs rt rd 0 32
  | .addu rd rs rt => encodeR rs rt rd 0 33
  | .sub rd rs rt => encodeR rs rt rd 0 34
  | .subu rd rs rt => encodeR rs rt rd 0 35
  | .and rd rs rt => encodeR rs rt rd 0 36
  | .or rd rs rt => encodeR rs rt rd 0 37
  | .xor rd rs rt => encodeR rs rt rd 0 38
  | .nor rd rs rt => encodeR rs rt rd 0 39
  | .slt rd rs rt => encodeR rs rt rd 0 42
  | .sltu rd rs rt => encodeR rs rt rd 0 43
  | .j target => encodeJ 2 target
  | .jal target => encodeJ 3 target
  | .beq rt rs offset => encodeI 4 rs rt offset
  | .bne rt rs offset => encodeI 5 rs rt offset
  | .addi rt rs imm => encodeI 8 rs rt imm
  | .addiu rt rs imm => encodeI 9 rs rt imm
  | .slti rt rs imm => encodeI 10 rs rt imm
  | .sltiu rt rs imm => encodeI 11 rs rt imm
  | .andi rt rs imm => encodeI 12 rs rt imm
  | .ori rt rs imm => encodeI 13 rs rt imm
  | .xori rt rs imm => encodeI 14 rs rt imm
  | .lui rt imm => encodeI 15 0 rt imm
  | .lb rt offset base => encodeI 32 base rt offset
  | .lw rt offset base => encodeI 35 base rt offset
  | .sb rt offset base => encodeI 40 base rt offset
  | .sw rt offset base => encodeI 43 base rt offset

/-! ### The rows of R57 -/

/-- A row of R57: `word & mask = pattern` selects the instruction. -/
structure Row where
  mask : Word
  pattern : Word
deriving DecidableEq, Repr

/-- A word matches a row (R57). -/
def Row.selects (row : Row) (w : Word) : Bool := w &&& row.mask == row.pattern

/-- The row of an instruction, mask and match as R57 prints them. -/
def Instr.row : Instr → Row
  | .sll _ _ _ => ⟨0xFFE0003F, 0x00000000⟩
  | .srl _ _ _ => ⟨0xFFE0003F, 0x00000002⟩
  | .sra _ _ _ => ⟨0xFFE0003F, 0x00000003⟩
  | .sllv _ _ _ => ⟨0xFC0007FF, 0x00000004⟩
  | .srlv _ _ _ => ⟨0xFC0007FF, 0x00000006⟩
  | .srav _ _ _ => ⟨0xFC0007FF, 0x00000007⟩
  | .jr _ => ⟨0xFC1FFFFF, 0x00000008⟩
  | .jalr _ _ => ⟨0xFC1F07FF, 0x00000009⟩
  | .syscall => ⟨0xFFFFFFFF, 0x0000000C⟩
  | .mfhi _ => ⟨0xFFFF07FF, 0x00000010⟩
  | .mflo _ => ⟨0xFFFF07FF, 0x00000012⟩
  | .mult _ _ => ⟨0xFC00FFFF, 0x00000018⟩
  | .multu _ _ => ⟨0xFC00FFFF, 0x00000019⟩
  | .div _ _ => ⟨0xFC00FFFF, 0x0000001A⟩
  | .divu _ _ => ⟨0xFC00FFFF, 0x0000001B⟩
  | .add _ _ _ => ⟨0xFC0007FF, 0x00000020⟩
  | .addu _ _ _ => ⟨0xFC0007FF, 0x00000021⟩
  | .sub _ _ _ => ⟨0xFC0007FF, 0x00000022⟩
  | .subu _ _ _ => ⟨0xFC0007FF, 0x00000023⟩
  | .and _ _ _ => ⟨0xFC0007FF, 0x00000024⟩
  | .or _ _ _ => ⟨0xFC0007FF, 0x00000025⟩
  | .xor _ _ _ => ⟨0xFC0007FF, 0x00000026⟩
  | .nor _ _ _ => ⟨0xFC0007FF, 0x00000027⟩
  | .slt _ _ _ => ⟨0xFC0007FF, 0x0000002A⟩
  | .sltu _ _ _ => ⟨0xFC0007FF, 0x0000002B⟩
  | .j _ => ⟨0xFC000000, 0x08000000⟩
  | .jal _ => ⟨0xFC000000, 0x0C000000⟩
  | .beq _ _ _ => ⟨0xFC000000, 0x10000000⟩
  | .bne _ _ _ => ⟨0xFC000000, 0x14000000⟩
  | .addi _ _ _ => ⟨0xFC000000, 0x20000000⟩
  | .addiu _ _ _ => ⟨0xFC000000, 0x24000000⟩
  | .slti _ _ _ => ⟨0xFC000000, 0x28000000⟩
  | .sltiu _ _ _ => ⟨0xFC000000, 0x2C000000⟩
  | .andi _ _ _ => ⟨0xFC000000, 0x30000000⟩
  | .ori _ _ _ => ⟨0xFC000000, 0x34000000⟩
  | .xori _ _ _ => ⟨0xFC000000, 0x38000000⟩
  | .lui _ _ => ⟨0xFFE00000, 0x3C000000⟩
  | .lb _ _ _ => ⟨0xFC000000, 0x80000000⟩
  | .lw _ _ _ => ⟨0xFC000000, 0x8C000000⟩
  | .sb _ _ _ => ⟨0xFC000000, 0xA0000000⟩
  | .sw _ _ _ => ⟨0xFC000000, 0xAC000000⟩

end Sys2Proof
end

