-- ==== Sys2Proof/Machine/Ops.lean ====
section
/-! DEFINITION. The operations every meaning is built from: register access (R11), memory access (R33 to R38), the
address map (R42, R43), fetch (R40), the end of an instruction (R15, R21), taking an exception (R205), and the
loading of a program (R231). -/

namespace Sys2Proof.Machine

/-! ### General registers -/

/-- Register `r` is hardwired to zero: `GPR0_IS_ZERO` holds and `r` is 0 (R11). -/
def State.hardwired (s : State) (r : Reg) : Bool := s.params.gpr0IsZero && r == 0

/-- `x[r]` (R8, R11). -/
def State.readReg (s : State) (r : Reg) : Word := if s.hardwired r then 0 else s.regs.get r

/-- `x[r] <- v` (R8, R11): a write to a hardwired register is discarded. -/
def State.writeReg (s : State) (r : Reg) (v : Word) : State :=
  if s.hardwired r then s else { s with regs := s.regs.set r.val v r.isLt }

/-- `HI <- hi` and `LO <- lo`: the instructions that write one write both (R13). -/
def State.writeHiLo (s : State) (hi lo : Word) : State := { s with hi := hi, lo := lo }

/-- The next unused draw and the one after it, both then used (R108, R109, log 8). -/
def State.useDraws (s : State) : State := { s with draws := s.draws + 2 }

/-! ### Bytes of memory -/

/-- The byte listed at an address, or `Config.unlistedByte` (log 6). -/
def readCells : List Host.Cell → Nat → Byte
  | [], _ => Config.unlistedByte
  | c :: rest, a => if c.1 = a then c.2 else readCells rest a

/-- The list with the cell put before the first greater address. -/
def insertCell (a : Nat) (b : Byte) : List Host.Cell → List Host.Cell
  | [] => [(a, b)]
  | c :: rest => if a < c.1 then (a, b) :: c :: rest else c :: insertCell a b rest

/-- The list without any cell at the address. -/
def eraseCell (a : Nat) : List Host.Cell → List Host.Cell
  | [] => []
  | c :: rest => if c.1 = a then eraseCell a rest else c :: eraseCell a rest

/-- The byte at an address. -/
def Memory.read (m : Memory) (a : Nat) : Byte := readCells m.cells a

/-- Memory with the byte at an address replaced; the canonical form is kept. -/
def Memory.write (m : Memory) (a : Nat) (b : Byte) : Memory :=
  ⟨if b = Config.unlistedByte then eraseCell a m.cells else insertCell a b (eraseCell a m.cells)⟩

/-- The cells are in canonical form: addresses of the 32-bit space, strictly rising; no byte equal to what an unlisted
address reads as. -/
def cellsWf : List Host.Cell → Bool
  | [] => true
  | c :: rest =>
    decide (c.1 < 2 ^ 32) && decide (c.2 ≠ Config.unlistedByte) && rest.all (fun d => decide (c.1 < d.1)) && cellsWf rest

/-- The canonical form of memory, so that equal memories are equal data. -/
def Memory.wf (m : Memory) : Bool := cellsWf m.cells

/-! ### Words of memory, big-endian (R33) -/

/-- The word address that contains a byte address: bits 1..0 replaced by 00 (R30, R39). -/
def wordAddress (a : Word) : Word := a.extractLsb' 2 30 ++ 0#2

/-- The word whose first byte is at `a` (R33, R34). -/
def Memory.readWord (m : Memory) (a : Nat) : Word :=
  wordOfBytes (m.read a) (m.read (a + 1)) (m.read (a + 2)) (m.read (a + 3))

/-- Memory with the word whose first byte is at `a` replaced (R33, R34). -/
def Memory.writeWord (m : Memory) (a : Nat) (v : Word) : Memory :=
  (((m.write a (byteOfWord v 0)).write (a + 1) (byteOfWord v 1)).write (a + 2) (byteOfWord v 2)).write (a + 3)
    (byteOfWord v 3)

/-! ### The address map (R42, R43) -/

/-- The range holds the word that contains byte address `a` (log 31). -/
def inRange (r : WordRange) (a : Word) : Bool :=
  decide (r.first ≤ a.toNat / 4) && decide (a.toNat / 4 < r.first + r.count)

/-- The word that contains `a` is in `MEM_DOMAIN` (R43). -/
def inDomain (p : Params) (a : Word) : Bool := p.memDomain.any (inRange · a)

/-- The word that contains `a` is in `TEXT_REGION`, a subset of `MEM_DOMAIN` (R42, R5). -/
def inText (p : Params) (a : Word) : Bool := inDomain p a && p.textRegion.any (inRange · a)

/-- The model fault of a data access to `a`, if any: `UnmappedAccess` before `TextAccess` (R35 to R38, R214). -/
def dataFault (p : Params) (a : Word) : Option Fault :=
  if !inDomain p a then some .unmappedAccess
  else if inText p a then some .textAccess
  else none

/-- The model fault of an instruction fetch at `a`, if any, in the order of R214 (R16, R43, R42). -/
def fetchFault (p : Params) (a : Word) : Option Fault :=
  if a.extractLsb' 0 2 ≠ 0#2 then some .unalignedFetch
  else if !inDomain p a then some .unmappedAccess
  else if !inText p a then some .textAccess
  else none

/-! ### Data accesses and fetch -/

/-- `MemRead(a, 1)` (R36). -/
def State.loadByte (s : State) (a : Word) : Except Fault Byte :=
  match dataFault s.params a with
  | some f => .error f
  | none => .ok (s.mem.read a.toNat)

/-- `MemRead(a[31:2] ++ 00, 4)` as data (R35, R39). -/
def State.loadWord (s : State) (a : Word) : Except Fault Word :=
  match dataFault s.params a with
  | some f => .error f
  | none => .ok (s.mem.readWord (wordAddress a).toNat)

/-- `MemWrite(a, 1, b)` (R38): only the addressed byte changes (D21). -/
def State.storeByte (s : State) (a : Word) (b : Byte) : Except Fault State :=
  match dataFault s.params a with
  | some f => .error f
  | none => .ok { s with mem := s.mem.write a.toNat b }

/-- `MemWrite(a[31:2] ++ 00, 4, v)` (R37, R39). -/
def State.storeWord (s : State) (a : Word) (v : Word) : Except Fault State :=
  match dataFault s.params a with
  | some f => .error f
  | none => .ok { s with mem := s.mem.writeWord (wordAddress a).toNat v }

/-- Instruction fetch: `MemRead(pc, 4)` with the checks of R15 (R40). -/
def State.fetch (s : State) : Except Fault Word :=
  match fetchFault s.params s.pc with
  | some f => .error f
  | none => .ok (s.mem.readWord s.pc.toNat)

/-! ### The end of an instruction (R15, R21) -/

/-- `max(HLGUARD - 1, 0)` (R21). -/
def guardAfter (g : Fin 3) : Fin 3 := ⟨g.val - 1, by omega⟩

/-- The last lines of R15: `pc <- npc`, `npc <- nextNpc`, and the bookkeeping of R21. -/
def State.finish (s : State) (nextNpc : Word) (ds : Bool) (ldreg : Option Reg) (hlguard : Fin 3) : State :=
  { s with pc := s.npc, npc := nextNpc, ds := ds, ldreg := ldreg, hlguard := hlguard }

/-- The end of an instruction that is no branch, jump, load, MFHI or MFLO. -/
def State.sequential (s : State) : State := s.finish (s.npc + 4) false none (guardAfter s.hlguard)

/-- The end of LB and LW: `LDREG <- rt` (R21). -/
def State.afterLoad (s : State) (rt : Reg) : State := s.finish (s.npc + 4) false (some rt) (guardAfter s.hlguard)

/-- The end of MFHI and MFLO: `HLGUARD <- 2` (R21). -/
def State.afterMove (s : State) : State := s.finish (s.npc + 4) false none 2

/-- The end of a jump or a taken branch: after the delay slot, execution continues at `target` (R15, R233). -/
def State.transfer (s : State) (target : Word) : State := s.finish target true none (guardAfter s.hlguard)

/-- The end of a conditional branch. Not taken, the next instruction is a delay slot all the same (R20, R160). -/
def State.branch (s : State) (condition : Bool) (target : Word) : State :=
  s.transfer (if condition then target else s.npc + 4)

/-! ### Taking an exception (R205). There is no return from one (R208). -/

/-- Trap entry: `raise c(pc)`. It saves nothing but the record `TRAP`; a pending transfer is discarded (R207). -/
def State.takeTrap (s : State) (c : Cause) : State :=
  { s with
    trap := some ⟨c, s.pc, s.ds⟩
    pc := s.params.excHandler
    npc := s.params.excHandler + 4
    ds := false
    ldreg := none
    hlguard := 0 }

/-- The run is over: a trap has been taken and `TRAP_HALTS` holds (R212, R244). -/
def State.runEnded (s : State) : Bool := s.params.trapHalts && s.trap.isSome

/-! ### Loading a program from outside the machine (R231, log 32) -/

/-- The words stored one after another from word address `4 * n`. -/
def writeWords : Memory → Nat → List Word → Memory
  | m, _, [] => m
  | m, n, w :: ws => writeWords (m.writeWord (4 * n) w) (n + 1) ws

/-- The program's words in memory from the word that contains `a`, that memory in `MEM_DOMAIN`, and those words (not
more) added to `TEXT_REGION`. -/
def State.loadWords (s : State) (a : Word) (ws : List Word) : State :=
  let range : WordRange := ⟨a.toNat / 4, ws.length⟩
  { s with
    mem := writeWords s.mem (a.toNat / 4) ws
    params := { s.params with
      memDomain := range :: s.params.memDomain
      textRegion := range :: s.params.textRegion } }

end Sys2Proof.Machine
end

