-- ==== Sys2Proof/Machine/Operands.lean ====
section
/-! DEFINITION. Every operand form of R58: how an instruction builds its operand from the fields of its word. -/

namespace Sys2Proof.Machine

/-- Sign-extended immediate: ADDI, ADDIU, SLTI, SLTIU. -/
def signExtended (imm : Imm) : Word := imm.signExtend 32

/-- Zero-extended immediate: ANDI, ORI, XORI. -/
def zeroExtended (imm : Imm) : Word := imm.setWidth 32

/-- Upper immediate `imm ++ rep(0, 16)`: LUI. -/
def upperImmediate (imm : Imm) : Word := imm ++ 0#16

/-- The effective address of a load or store, modulo 2^32 (R31, R150). -/
def State.effectiveAddress (s : State) (base : Reg) (offset : Imm) : Word := signExtended offset + s.readReg base

/-- The branch offset `rep(imm[15], 14) ++ imm ++ 00` (R160). -/
def branchOffset (offset : Imm) : Word := (offset ++ 0#2 : BitVec 18).signExtend 32

/-- The branch target: the delay-slot instruction's address plus the branch offset, modulo 2^32 (R160). -/
def State.branchTarget (s : State) (offset : Imm) : Word := s.npc + branchOffset offset

/-- The jump target `ia[31:28] ++ target ++ 00` (R171, D27). -/
def State.jumpTarget (s : State) (target : Target) : Word := s.pc.extractLsb' 28 4 ++ target ++ 0#2

/-- The link value `ia + 8`, modulo 2^32 (R172, R174). -/
def State.linkValue (s : State) : Word := s.pc + 8

/-- The variable shift amount `x[rs][4:0]` (R130). -/
def State.shiftAmount (s : State) (rs : Reg) : Shamt := ((s.readReg rs).extractLsb' 0 5).toFin

end Sys2Proof.Machine
end

