-- ==== Sys2Proof/Machine/Arithmetic.lean ====
section
/-! DEFINITION. The arithmetic instructions (R100 to R111). -/

namespace Sys2Proof.Machine

/-- The common form of ADD, ADDI and SUB: trap on overflow, else write the low 32 bits of the 33-bit result (R100). -/
def State.trappingResult (s : State) (dest : Reg) (wide : BitVec 33) : Host.Outcome State Fault Refusal :=
  if overflows wide then .next (s.takeTrap .overflow)
  else .next ((s.writeReg dest (wide.setWidth 32)).sequential)

/-- ADD (R101). -/
def execAdd (rd rs rt : Reg) (s : State) : Host.Outcome State Fault Refusal :=
  s.trappingResult rd (wideSum (s.readReg rs) (s.readReg rt))

/-- ADDI (R102). -/
def execAddi (rt rs : Reg) (imm : Imm) (s : State) : Host.Outcome State Fault Refusal :=
  s.trappingResult rt (wideSum (s.readReg rs) (signExtended imm))

/-- ADDU (R103). -/
def execAddu (rd rs rt : Reg) (s : State) : Host.Outcome State Fault Refusal :=
  .next ((s.writeReg rd (s.readReg rs + s.readReg rt)).sequential)

/-- ADDIU (R104). -/
def execAddiu (rt rs : Reg) (imm : Imm) (s : State) : Host.Outcome State Fault Refusal :=
  .next ((s.writeReg rt (s.readReg rs + signExtended imm)).sequential)

/-- SUB (R105). -/
def execSub (rd rs rt : Reg) (s : State) : Host.Outcome State Fault Refusal :=
  s.trappingResult rd (wideDifference (s.readReg rs) (s.readReg rt))

/-- SUBU (R110). -/
def execSubu (rd rs rt : Reg) (s : State) : Host.Outcome State Fault Refusal :=
  .next ((s.writeReg rd (s.readReg rs - s.readReg rt)).sequential)

/-- The upper 32 bits of a product to HI, the lower 32 to LO (R106, R107). -/
def State.writeProduct (s : State) (t : BitVec 64) : State := s.writeHiLo (t.extractLsb' 32 32) (t.extractLsb' 0 32)

/-- MULT (R106): the exact signed product. -/
def execMult (rs rt : Reg) (s : State) : Host.Outcome State Fault Refusal :=
  .next ((s.writeProduct (BitVec.ofInt 64 ((s.readReg rs).toInt * (s.readReg rt).toInt))).sequential)

/-- MULTU (R107): the exact unsigned product. -/
def execMultu (rs rt : Reg) (s : State) : Host.Outcome State Fault Refusal :=
  .next ((s.writeProduct (BitVec.ofNat 64 ((s.readReg rs).toNat * (s.readReg rt).toNat))).sequential)

/-- `divS` (R108, D18): the quotient rounded toward zero. PRESUMED, from general knowledge (log 9). -/
def divS (n d : Int) : Int := n.tdiv d

/-- `modS` (R108, D18): `n - d * divS(n, d)`. -/
def modS (n d : Int) : Int := n - d * divS n d

/-- HI and LO each receive a draw (D19, D20), two independent ones (U6, U7, log 8). -/
def State.writeDraws (s : State) : State :=
  (s.writeHiLo (Config.draw (s.draws + 1)) (Config.draw s.draws)).useDraws

/-- DIV (R108): quotient to LO, remainder to HI; free values where the divisor is 0 and for -2^31 / -1. -/
def execDiv (rs rt : Reg) (s : State) : Host.Outcome State Fault Refusal :=
  let n := (s.readReg rs).toInt
  let d := (s.readReg rt).toInt
  if d = 0 then .next s.writeDraws.sequential
  else if n = -2 ^ 31 ∧ d = -1 then .next s.writeDraws.sequential
  else .next ((s.writeHiLo (BitVec.ofInt 32 (modS n d)) (BitVec.ofInt 32 (divS n d))).sequential)

/-- DIVU (R109): quotient to LO, remainder to HI; free values where the divisor is 0. -/
def execDivu (rs rt : Reg) (s : State) : Host.Outcome State Fault Refusal :=
  let n := (s.readReg rs).toNat
  let d := (s.readReg rt).toNat
  if d = 0 then .next s.writeDraws.sequential
  else .next ((s.writeHiLo (BitVec.ofNat 32 (n % d)) (BitVec.ofNat 32 (n / d))).sequential)

end Sys2Proof.Machine
end

