-- ==== Sys2Proof/Machine/Branch.lean ====
section
/-! DEFINITION. The conditional branches (R160 to R162): delayed, relative to the delay slot's address. -/

namespace Sys2Proof.Machine

/-- BEQ (R161). -/
def execBeq (rt rs : Reg) (offset : Imm) (s : State) : Host.Outcome State Fault Refusal :=
  .next (s.branch (s.readReg rs == s.readReg rt) (s.branchTarget offset))

/-- BNE (R162). -/
def execBne (rt rs : Reg) (offset : Imm) (s : State) : Host.Outcome State Fault Refusal :=
  .next (s.branch (s.readReg rs != s.readReg rt) (s.branchTarget offset))

end Sys2Proof.Machine
end

