-- ==== Sys2Proof/Machine/Compare.lean ====
section
/-! DEFINITION. The compare instructions (R140 to R144): 1 if the left side is strictly less, else 0. -/

namespace Sys2Proof.Machine

/-- SLT (R141). -/
def execSlt (rd rs rt : Reg) (s : State) : Host.Outcome State Fault Refusal :=
  .next ((s.writeReg rd (truthWord ((s.readReg rs).toInt < (s.readReg rt).toInt))).sequential)

/-- SLTU (R142). -/
def execSltu (rd rs rt : Reg) (s : State) : Host.Outcome State Fault Refusal :=
  .next ((s.writeReg rd (truthWord ((s.readReg rs).toNat < (s.readReg rt).toNat))).sequential)

/-- SLTI (R143). -/
def execSlti (rt rs : Reg) (imm : Imm) (s : State) : Host.Outcome State Fault Refusal :=
  .next ((s.writeReg rt (truthWord ((s.readReg rs).toInt < (signExtended imm).toInt))).sequential)

/-- SLTIU (R144): the immediate is sign-extended, then both sides are compared as unsigned. -/
def execSltiu (rt rs : Reg) (imm : Imm) (s : State) : Host.Outcome State Fault Refusal :=
  .next ((s.writeReg rt (truthWord ((s.readReg rs).toNat < (signExtended imm).toNat))).sequential)

end Sys2Proof.Machine
end

