-- ==== Sys2Proof/Machine/Jump.lean ====
section
/-! DEFINITION. The jumps (R170 to R174): delayed, unconditional; the link is written in the jump's own step. -/

namespace Sys2Proof.Machine

/-- J (R171). -/
def execJ (target : Target) (s : State) : Host.Outcome State Fault Refusal :=
  .next (s.transfer (s.jumpTarget target))

/-- JAL (R172): links in register 31. -/
def execJal (target : Target) (s : State) : Host.Outcome State Fault Refusal :=
  .next ((s.writeReg 31 s.linkValue).transfer (s.jumpTarget target))

/-- JR (R173). -/
def execJr (rs : Reg) (s : State) : Host.Outcome State Fault Refusal :=
  .next (s.transfer (s.readReg rs))

/-- JALR (R174): the destination is read before the link is written (D26). -/
def execJalr (rd rs : Reg) (s : State) : Host.Outcome State Fault Refusal :=
  .next ((s.writeReg rd s.linkValue).transfer (s.readReg rs))

end Sys2Proof.Machine
end

