-- ==== Sys2Proof/Machine/LoadStore.lean ====
section
/-! DEFINITION. The load and store instructions (R150 to R154). -/

namespace Sys2Proof.Machine

/-- LB (R151): the byte, sign-extended. -/
def execLb (rt : Reg) (offset : Imm) (base : Reg) (s : State) : Host.Outcome State Fault Refusal :=
  match s.loadByte (s.effectiveAddress base offset) with
  | .error f => .fault f
  | .ok b => .next ((s.writeReg rt (b.signExtend 32)).afterLoad rt)

/-- LW (R152): bits 1..0 of the address are ignored. -/
def execLw (rt : Reg) (offset : Imm) (base : Reg) (s : State) : Host.Outcome State Fault Refusal :=
  match s.loadWord (s.effectiveAddress base offset) with
  | .error f => .fault f
  | .ok v => .next ((s.writeReg rt v).afterLoad rt)

/-- SB (R153): the register's least significant byte. -/
def execSb (rt : Reg) (offset : Imm) (base : Reg) (s : State) : Host.Outcome State Fault Refusal :=
  match s.storeByte (s.effectiveAddress base offset) ((s.readReg rt).extractLsb' 0 8) with
  | .error f => .fault f
  | .ok s' => .next s'.sequential

/-- SW (R154): bits 1..0 of the address are ignored. -/
def execSw (rt : Reg) (offset : Imm) (base : Reg) (s : State) : Host.Outcome State Fault Refusal :=
  match s.storeWord (s.effectiveAddress base offset) (s.readReg rt) with
  | .error f => .fault f
  | .ok s' => .next s'.sequential

end Sys2Proof.Machine
end

