-- ==== Sys2Proof/Machine/Logical.lean ====
section
/-! DEFINITION. The logical instructions (R120 to R127); the immediate forms zero-extend (90_conflicts.md C1, C2). -/

namespace Sys2Proof.Machine

/-- AND (R121). -/
def execAnd (rd rs rt : Reg) (s : State) : Host.Outcome State Fault Refusal :=
  .next ((s.writeReg rd (s.readReg rs &&& s.readReg rt)).sequential)

/-- ANDI (R122). -/
def execAndi (rt rs : Reg) (imm : Imm) (s : State) : Host.Outcome State Fault Refusal :=
  .next ((s.writeReg rt (s.readReg rs &&& zeroExtended imm)).sequential)

/-- OR (R123). -/
def execOr (rd rs rt : Reg) (s : State) : Host.Outcome State Fault Refusal :=
  .next ((s.writeReg rd (s.readReg rs ||| s.readReg rt)).sequential)

/-- ORI (R124). -/
def execOri (rt rs : Reg) (imm : Imm) (s : State) : Host.Outcome State Fault Refusal :=
  .next ((s.writeReg rt (s.readReg rs ||| zeroExtended imm)).sequential)

/-- XOR (R125). -/
def execXor (rd rs rt : Reg) (s : State) : Host.Outcome State Fault Refusal :=
  .next ((s.writeReg rd (s.readReg rs ^^^ s.readReg rt)).sequential)

/-- XORI (R126). -/
def execXori (rt rs : Reg) (imm : Imm) (s : State) : Host.Outcome State Fault Refusal :=
  .next ((s.writeReg rt (s.readReg rs ^^^ zeroExtended imm)).sequential)

/-- NOR (R127). -/
def execNor (rd rs rt : Reg) (s : State) : Host.Outcome State Fault Refusal :=
  .next ((s.writeReg rd (~~~(s.readReg rs ||| s.readReg rt))).sequential)

end Sys2Proof.Machine
end

