-- ==== Sys2Proof/Machine/Move.lean ====
section
/-! DEFINITION. LUI, MFHI and MFLO (R180 to R182). -/

namespace Sys2Proof.Machine

/-- LUI (R180). -/
def execLui (rt : Reg) (imm : Imm) (s : State) : Host.Outcome State Fault Refusal :=
  .next ((s.writeReg rt (upperImmediate imm)).sequential)

/-- MFHI (R181). -/
def execMfhi (rd : Reg) (s : State) : Host.Outcome State Fault Refusal :=
  .next ((s.writeReg rd s.hi).afterMove)

/-- MFLO (R182). -/
def execMflo (rd : Reg) (s : State) : Host.Outcome State Fault Refusal :=
  .next ((s.writeReg rd s.lo).afterMove)

end Sys2Proof.Machine
end

