-- ==== Sys2Proof/Machine/Shift.lean ====
section
/-! DEFINITION. The shift instructions (R130 to R136): the value shifted is `x[rt]`, the amount 0 to 31. -/

namespace Sys2Proof.Machine

/-- SLL (R131). -/
def execSll (rd rt : Reg) (shamt : Shamt) (s : State) : Host.Outcome State Fault Refusal :=
  .next ((s.writeReg rd (s.readReg rt <<< shamt.val)).sequential)

/-- SRL (R132). -/
def execSrl (rd rt : Reg) (shamt : Shamt) (s : State) : Host.Outcome State Fault Refusal :=
  .next ((s.writeReg rd (s.readReg rt >>> shamt.val)).sequential)

/-- SRA (R133). -/
def execSra (rd rt : Reg) (shamt : Shamt) (s : State) : Host.Outcome State Fault Refusal :=
  .next ((s.writeReg rd ((s.readReg rt).sshiftRight shamt.val)).sequential)

/-- SLLV (R134). -/
def execSllv (rd rt rs : Reg) (s : State) : Host.Outcome State Fault Refusal :=
  .next ((s.writeReg rd (s.readReg rt <<< (s.shiftAmount rs).val)).sequential)

/-- SRLV (R135). -/
def execSrlv (rd rt rs : Reg) (s : State) : Host.Outcome State Fault Refusal :=
  .next ((s.writeReg rd (s.readReg rt >>> (s.shiftAmount rs).val)).sequential)

/-- SRAV (R136). -/
def execSrav (rd rt rs : Reg) (s : State) : Host.Outcome State Fault Refusal :=
  .next ((s.writeReg rd ((s.readReg rt).sshiftRight (s.shiftAmount rs).val)).sequential)

end Sys2Proof.Machine
end

