-- ==== Sys2Proof/Machine/System.lean ====
section
/-! DEFINITION. SYSCALL (R190): the system-call trap, not delayed. -/

namespace Sys2Proof.Machine

/-- SYSCALL (R190): `raise Syscall(ia)`. -/
def execSyscall (s : State) : Host.Outcome State Fault Refusal :=
  .next (s.takeTrap .syscall)

end Sys2Proof.Machine
end

