-- ==== Sys2Proof/Machine/Hazards.lean ====
section
/-! DEFINITION. The hazard checks a step makes on the decoded instruction before it executes (R15, R234, R236, R238),
from the "reads" and "writes" columns of R57. -/

namespace Sys2Proof.Machine

/-- BEQ, BNE, J, JAL, JR, JALR: the six instructions with a delay slot (R233). -/
def isTransfer : Instr → Bool
  | .beq _ _ _ | .bne _ _ _ | .j _ | .jal _ | .jr _ | .jalr _ _ => true
  | _ => false

/-- MULT, MULTU, DIV, DIVU: the four instructions that modify HI and LO (R13, R238). -/
def writesHiLo : Instr → Bool
  | .mult _ _ | .multu _ _ | .div _ _ | .divu _ _ => true
  | _ => false

/-- MFHI, MFLO: the two instructions that read HI or LO (R13). -/
def readsHiLo : Instr → Bool
  | .mfhi _ | .mflo _ => true
  | _ => false

/-- The target register of LB and LW (R21). -/
def loadTarget : Instr → Option Reg
  | .lb rt _ _ | .lw rt _ _ => some rt
  | _ => none

/-- The general registers an instruction reads (R57, column "reads"). -/
def readsOf : Instr → List Reg
  | .sll _ rt _ | .srl _ rt _ | .sra _ rt _ => [rt]
  | .sllv _ rt rs | .srlv _ rt rs | .srav _ rt rs => [rs, rt]
  | .jr rs | .jalr _ rs => [rs]
  | .mult rs rt | .multu rs rt | .div rs rt | .divu rs rt => [rs, rt]
  | .add _ rs rt | .addu _ rs rt | .sub _ rs rt | .subu _ rs rt => [rs, rt]
  | .and _ rs rt | .or _ rs rt | .xor _ rs rt | .nor _ rs rt => [rs, rt]
  | .slt _ rs rt | .sltu _ rs rt => [rs, rt]
  | .beq rt rs _ | .bne rt rs _ => [rs, rt]
  | .addi _ rs _ | .addiu _ rs _ | .slti _ rs _ | .sltiu _ rs _ => [rs]
  | .andi _ rs _ | .ori _ rs _ | .xori _ rs _ => [rs]
  | .lb _ _ base | .lw _ _ base => [base]
  | .sb rt _ base | .sw rt _ base => [base, rt]
  | .syscall | .mfhi _ | .mflo _ | .j _ | .jal _ | .lui _ _ => []

/-- The general registers an instruction writes (R57, column "writes"); JAL writes register 31. -/
def writesOf : Instr → List Reg
  | .sll rd _ _ | .srl rd _ _ | .sra rd _ _ | .sllv rd _ _ | .srlv rd _ _ | .srav rd _ _ => [rd]
  | .jalr rd _ | .mfhi rd | .mflo rd => [rd]
  | .add rd _ _ | .addu rd _ _ | .sub rd _ _ | .subu rd _ _ => [rd]
  | .and rd _ _ | .or rd _ _ | .xor rd _ _ | .nor rd _ _ | .slt rd _ _ | .sltu rd _ _ => [rd]
  | .jal _ => [31]
  | .addi rt _ _ | .addiu rt _ _ | .slti rt _ _ | .sltiu rt _ _ => [rt]
  | .andi rt _ _ | .ori rt _ _ | .xori rt _ _ | .lui rt _ => [rt]
  | .lb rt _ _ | .lw rt _ _ => [rt]
  | .syscall | .jr _ | .mult _ _ | .multu _ _ | .div _ _ | .divu _ _ => []
  | .j _ | .beq _ _ _ | .bne _ _ _ | .sb _ _ _ | .sw _ _ _ => []

/-- A branch or jump in a delay slot (R234). -/
def State.delaySlotHazard (s : State) (i : Instr) : Bool := s.ds && isTransfer i

/-- A reference to the register the preceding instruction loaded (R236); a hardwired register is exempt. -/
def State.loadHazard (s : State) (i : Instr) : Bool :=
  match s.params.loadUse, s.ldreg with
  | .fault, some r => (r ∈ readsOf i ∨ r ∈ writesOf i) && !s.hardwired r
  | .fault, none => false
  | .newValue, _ => false

/-- A HI/LO writer within the two instructions after MFHI or MFLO (R238). -/
def State.guardHazard (s : State) (i : Instr) : Bool :=
  match s.params.hiloRule with
  | .fault => decide (0 < s.hlguard.val) && writesHiLo i
  | .ignore => false

/-- The first hazard that applies, in the order of R214. -/
def State.hazard (s : State) (i : Instr) : Option Fault :=
  if s.delaySlotHazard i then some .branchInDelaySlot
  else if s.loadHazard i then some .loadUseHazard
  else if s.guardHazard i then some .hiLoHazard
  else none

end Sys2Proof.Machine
end

