-- ==== Sys2Proof/Machine/Step.lean ====
section
/-! DEFINITION. One step of the machine (R15), and where the step fetches its next instruction. -/

namespace Sys2Proof.Machine

/-- `Step` (R15): no step after the run has ended (R212); fetch with its checks (R40); decode, a reserved word faults
(R60); the hazard checks (R234, R236, R238); then the instruction's meaning. -/
def step (s : State) : Host.Outcome State Fault Refusal :=
  if s.runEnded then .refused .runEnded
  else
    match s.fetch with
    | .error f => .fault f
    | .ok w =>
      match decode w with
      | .error _ => .fault .reservedInstruction
      | .ok i =>
        match s.hazard i with
        | some f => .fault f
        | none => exec i s

/-- The state with an instruction, as spec/opcode_table.json numbers its bits, loaded as the program's word at `pc`
(log 32). -/
def State.withFetchWord (s : State) (nbits w : Nat) : State :=
  s.loadWords s.pc [BitVec.ofNat 32 (w % 2 ^ nbits)]

end Sys2Proof.Machine
end

