-- ==== Sys2Proof/Safety.lean ====
section
/-! DEFINITION. The terms claims are stated in: how a run ends (R212, R213, R244), the invariant every step keeps, what an
instruction leaves unchanged (its frame), how it ends, and the words, destinations and exceptions the rules give it,
written in plain arithmetic. -/

namespace Sys2Proof.Machine

/-! ### How a run ends -/

/-- The run has ended with SYSCALL: "a normal end" (R212). -/
def State.endedNormally (s : State) : Prop := s.runEnded = true ∧ ∃ r, s.trap = some r ∧ r.cause = .syscall

/-- The run has ended with an overflow: "ended by an error of the program" (R212). -/
def State.endedInError (s : State) : Prop := s.runEnded = true ∧ ∃ r, s.trap = some r ∧ r.cause = .overflow

/-- No model fault in the first `k` steps: "a claim about a program has 'no fault' among its premises" (R213). -/
def FaultFree (s : State) (k : Nat) : Prop := ∀ n ≤ k, ∀ f, Sys2Proof.core.run n s ≠ .fault f

/-- Where a step fetches `w` and decodes it as `i`: the run has not ended and no check before the hazards stops it. -/
structure Fetches (s : State) (w : Word) (i : Instr) : Prop where
  running : s.runEnded = false
  fetched : s.fetch = .ok w
  decoded : decode w = .ok i

/-! ### The invariant -/

/-- A multiple of 4 (R16). -/
def Aligned (a : Word) : Prop := a.toNat % 4 = 0

/-- What every launch state with canonical memory meets and every step keeps: canonical memory; `npc = pc + 4` outside a
delay slot (R14); a delay slot and the instruction after a load exclude each other and the two full guard steps after
MFHI or MFLO (R21); the recorded trap address is a multiple of 4 (R16, R205). -/
structure State.Inv (s : State) : Prop where
  mem : s.mem.wf = true
  npc : s.ds = false → s.npc = s.pc + 4
  slot : s.ds = true → s.ldreg = none ∧ s.hlguard.val ≤ 1
  load : s.ldreg ≠ none → s.hlguard.val ≤ 1
  trap : ∀ r, s.trap = some r → Aligned r.epc

/-! ### Frames -/

/-- From `s` to `t` nothing changes but the named general registers, HI and LO if `hiLo`, the bytes of memory at the
named addresses, and the control state (`pc`, `npc`, `DS`, `LDREG`, `HLGUARD`). -/
structure Frame (s t : State) (regs : List Reg) (hiLo : Bool) (bytes : List Nat) : Prop where
  regs : ∀ r, r ∉ regs → t.readReg r = s.readReg r
  hi : hiLo = false → t.hi = s.hi
  lo : hiLo = false → t.lo = s.lo
  mem : ∀ a, a ∉ bytes → t.mem.read a = s.mem.read a
  trap : t.trap = s.trap
  params : t.params = s.params

/-- The control state after an instruction that raises nothing (R15, R21). The pair `pc`, `npc` is the spec's decision
D32, log 29; `DS`, `LDREG` and `HLGUARD` are its bookkeeping, D15 to D17, logs 14 to 16. -/
structure Control (s t : State) (npc : Word) (ds : Bool) (ldreg : Option Reg) (hlguard : Nat) : Prop where
  pc : t.pc = s.npc
  npc : t.npc = npc
  ds : t.ds = ds
  ldreg : t.ldreg = ldreg
  hlguard : t.hlguard.val = hlguard

/-- The control state after an instruction that is no branch, jump, load, MFHI or MFLO (R15, R21; logs 29 and 14 to 16
as for `Control`). -/
def Advances (s t : State) : Prop := Control s t (s.npc + 4) false none (s.hlguard.val - 1)

/-- Register `rd` gets `v`, a hardwired register stays zero (R11), and nothing else changes but the control state. -/
structure Sets (s t : State) (rd : Reg) (v : Word) : Prop where
  dest : t.readReg rd = if s.params.gpr0IsZero = true ∧ rd = 0 then 0 else v
  frame : Frame s t [rd] false []
  draws : t.draws = s.draws

/-- The effect of an instruction that computes a register: `rd` gets `v`, and execution goes on with the next one. -/
def Computes (s t : State) (rd : Reg) (v : Word) : Prop := Sets s t rd v ∧ Advances s t

/-- `x[rd] <- v` (R8), and nothing else changes but the control state. -/
structure Assigns (s t : State) (rd : Reg) (v : Word) : Prop where
  regs : ∀ r, t.readReg r = (s.writeReg rd v).readReg r
  frame : Frame s t [rd] false []

/-- Trap entry (R205): the raising instruction writes nothing; `TRAP` records cause, address and delay slot; control
goes to the handler; the bookkeeping is cleared. -/
structure Traps (s t : State) (c : Cause) : Prop where
  trap : t.trap = some ⟨c, s.pc, s.ds⟩
  pc : t.pc = s.params.excHandler
  npc : t.npc = s.params.excHandler + 4
  ds : t.ds = false
  ldreg : t.ldreg = none
  hlguard : t.hlguard.val = 0
  regs : ∀ r, t.readReg r = s.readReg r
  hi : t.hi = s.hi
  lo : t.lo = s.lo
  mem : ∀ a, t.mem.read a = s.mem.read a
  params : t.params = s.params
  draws : t.draws = s.draws

/-! ### Words in plain arithmetic (R51 to R53) -/

/-- The R-format word with these field values. -/
def rWord (rs rt rd : Reg) (shamt : Shamt) (funct : Nat) : Word :=
  BitVec.ofNat 32 (rs.val * 2 ^ 21 + rt.val * 2 ^ 16 + rd.val * 2 ^ 11 + shamt.val * 2 ^ 6 + funct)

/-- The I-format word with these field values. -/
def iWord (op : Nat) (rs rt : Reg) (imm : Imm) : Word :=
  BitVec.ofNat 32 (op * 2 ^ 26 + rs.val * 2 ^ 21 + rt.val * 2 ^ 16 + imm.toNat)

/-- The J-format word with these field values. -/
def jWord (op : Nat) (target : Target) : Word := BitVec.ofNat 32 (op * 2 ^ 26 + target.toNat)

/-- The word `w` stands for `i`, and `i` runs from `s` to a next state with property `P`. -/
def Executes (w : Word) (i : Instr) (s : State) (P : State → Prop) : Prop :=
  decode w = .ok i ∧ ∃ t, exec i s = .next t ∧ P t

/-- The number in the `n` bits of a word from bit `lo` up. -/
def bits (w : Word) (lo n : Nat) : Nat := w.toNat / 2 ^ lo % 2 ^ n

/-- Every operand of the instruction is the word's field of that name (R59). -/
def FieldsOf (w : Word) : Instr → Prop
  | .sll rd rt shamt | .srl rd rt shamt | .sra rd rt shamt =>
    rt.val = bits w 16 5 ∧ rd.val = bits w 11 5 ∧ shamt.val = bits w 6 5
  | .sllv rd rt rs | .srlv rd rt rs | .srav rd rt rs | .add rd rs rt | .addu rd rs rt | .sub rd rs rt | .subu rd rs rt
  | .and rd rs rt | .or rd rs rt | .xor rd rs rt | .nor rd rs rt | .slt rd rs rt | .sltu rd rs rt =>
    rs.val = bits w 21 5 ∧ rt.val = bits w 16 5 ∧ rd.val = bits w 11 5
  | .jr rs => rs.val = bits w 21 5
  | .jalr rd rs => rs.val = bits w 21 5 ∧ rd.val = bits w 11 5
  | .syscall => True
  | .mfhi rd | .mflo rd => rd.val = bits w 11 5
  | .mult rs rt | .multu rs rt | .div rs rt | .divu rs rt => rs.val = bits w 21 5 ∧ rt.val = bits w 16 5
  | .j target | .jal target => target.toNat = bits w 0 26
  | .beq rt rs imm | .bne rt rs imm | .addi rt rs imm | .addiu rt rs imm | .slti rt rs imm | .sltiu rt rs imm
  | .andi rt rs imm | .ori rt rs imm | .xori rt rs imm =>
    rs.val = bits w 21 5 ∧ rt.val = bits w 16 5 ∧ imm.toNat = bits w 0 16
  | .lui rt imm => rt.val = bits w 16 5 ∧ imm.toNat = bits w 0 16
  | .lb rt imm rs | .lw rt imm rs | .sb rt imm rs | .sw rt imm rs =>
    rs.val = bits w 21 5 ∧ rt.val = bits w 16 5 ∧ imm.toNat = bits w 0 16

/-- The word matches no row of R57 (R60). -/
def NoRow (w : Word) : Prop := ∀ i : Instr, i.row.selects w = false

/-- The word has the instruction's opcode and, where that is 0, its function code (R55, R56). -/
def SameOperation (w : Word) (i : Instr) : Prop :=
  bits w 26 6 = bits i.row.pattern 26 6 ∧ (bits w 26 6 = 0 → bits w 0 6 = bits i.row.pattern 0 6)

/-! ### What the rules give an instruction -/

/-- A 32-bit two's-complement value (R100). -/
def FitsWord (z : Int) : Prop := -2 ^ 31 ≤ z ∧ z < 2 ^ 31

/-- The exact result of ADD, ADDI and SUB (R100). -/
def exactResult (s : State) : Instr → Option Int
  | .add _ rs rt => some ((s.readReg rs).toInt + (s.readReg rt).toInt)
  | .addi _ rs imm => some ((s.readReg rs).toInt + imm.toInt)
  | .sub _ rs rt => some ((s.readReg rs).toInt - (s.readReg rt).toInt)
  | _ => none

/-- The instruction raises the exception `c` (R200, R201): ADD, ADDI and SUB when the exact result does not fit,
SYSCALL always, no other. -/
def Raises (s : State) (i : Instr) (c : Cause) : Prop :=
  (c = .overflow ∧ ∃ z, exactResult s i = some z ∧ ¬ FitsWord z) ∨ (c = .syscall ∧ i = .syscall)

/-- Where control goes after the delay slot of a branch or jump (R160 to R174); none for any other instruction. -/
def destination (s : State) : Instr → Option Word
  | .beq rt rs offset =>
    some (if s.readReg rs = s.readReg rt then BitVec.ofInt 32 (s.npc.toNat + 4 * offset.toInt) else s.npc + 4)
  | .bne rt rs offset =>
    some (if s.readReg rs ≠ s.readReg rt then BitVec.ofInt 32 (s.npc.toNat + 4 * offset.toInt) else s.npc + 4)
  | .j target | .jal target => some (BitVec.ofNat 32 (s.pc.toNat / 2 ^ 28 * 2 ^ 28 + target.toNat * 4))
  | .jr rs | .jalr _ rs => some (s.readReg rs)
  | _ => none

/-- The bytes of the word that contains an address. -/
def wordBytes (a : Word) : List Nat :=
  [(wordAddress a).toNat, (wordAddress a).toNat + 1, (wordAddress a).toNat + 2, (wordAddress a).toNat + 3]

/-- The bytes of memory an instruction stores to (R153, R154). -/
def storedBytes (s : State) : Instr → List Nat
  | .sb _ offset base => [(s.effectiveAddress base offset).toNat]
  | .sw _ offset base => wordBytes (s.effectiveAddress base offset)
  | _ => []

/-- The address of a load or store (R150). -/
def dataAddress (s : State) : Instr → Option Word
  | .lb _ offset base | .lw _ offset base | .sb _ offset base | .sw _ offset base =>
    some (s.effectiveAddress base offset)
  | _ => none

/-! ### One memory or two (R42) -/

/-- An outcome with its next state changed. -/
def mapNext (f : State → State) : Host.Outcome State Fault Refusal → Host.Outcome State Fault Refusal
  | .next t => .next (f t)
  | .fault r => .fault r
  | .refused r => .refused r

/-- The step of the other reading of R42: instructions come from a memory of their own, and loads and stores reach the
state's memory only. -/
def splitStep (program : Memory) (s : State) : Host.Outcome State Fault Refusal :=
  if s.runEnded then .refused .runEnded
  else
    match State.fetch { s with mem := program } with
    | .error f => .fault f
    | .ok w =>
      match decode w with
      | .error _ => .fault .reservedInstruction
      | .ok i =>
        match s.hazard i with
        | some f => .fault f
        | none => exec i s

/-- `k` steps of the other reading. -/
def splitRun (program : Memory) : Nat → State → Host.Outcome State Fault Refusal
  | 0, s => .next s
  | k + 1, s =>
    match splitStep program s with
    | .next t => splitRun program k t
    | .fault f => .fault f
    | .refused r => .refused r

/-- The two states are equal but for bytes of memory inside `TEXT_REGION`. -/
def SameButText (s t : State) : Prop :=
  t = { s with mem := t.mem } ∧ ∀ a : Word, inText s.params a = false → t.mem.read a.toNat = s.mem.read a.toNat

/-- The memory holds the state's bytes of `TEXT_REGION`. -/
def HoldsText (program : Memory) (s : State) : Prop :=
  ∀ a : Word, inText s.params a = true → program.read a.toNat = s.mem.read a.toNat

/-- Two runs end alike: in the same fault, the same refusal, or in states equal but for bytes of the program. -/
def EndAlike : Host.Outcome State Fault Refusal → Host.Outcome State Fault Refusal → Prop
  | .next s, .next t => SameButText s t
  | .fault f, .fault g => f = g
  | .refused q, .refused r => q = r
  | _, _ => False

end Sys2Proof.Machine
end

