-- ==== Sys2Proof/WellFormed.lean ====
section
/-! DEFINITION. When an instruction's operands fit the fields of its format (R50 to R54). Register numbers, shift
amounts, immediates and targets carry their bounds in their types, so every `Instr` passes; the check itself refuses
raw numbers that do not fit. -/

namespace Sys2Proof

/-- An operand as a plain number beside the width in bits of the field that holds it. -/
structure Operand where
  value : Nat
  width : Nat
deriving DecidableEq, Repr

/-- The operand's number fits its field: a register number or shift amount is at most 31, an immediate less than
2^16, a target less than 2^26 (R51, R52, R53). -/
def Operand.fits (o : Operand) : Bool := o.value < 2 ^ o.width

/-- A 5-bit operand: a register number or a shift amount (R51). -/
def operand5 (n : Fin 32) : Operand := ⟨n.val, 5⟩

/-- A 16-bit operand: an immediate or an offset (R52). -/
def operand16 (n : Imm) : Operand := ⟨n.toNat, 16⟩

/-- A 26-bit operand: a jump target (R53). -/
def operand26 (n : Target) : Operand := ⟨n.toNat, 26⟩

/-- The operands of an instruction, in the order of its syntax line (R63). -/
def Instr.operands : Instr → List Operand
  | .sll rd rt shamt | .srl rd rt shamt | .sra rd rt shamt => [operand5 rd, operand5 rt, operand5 shamt]
  | .sllv rd rt rs | .srlv rd rt rs | .srav rd rt rs => [operand5 rd, operand5 rt, operand5 rs]
  | .jr rs => [operand5 rs]
  | .jalr rd rs => [operand5 rd, operand5 rs]
  | .syscall => []
  | .mfhi rd | .mflo rd => [operand5 rd]
  | .mult rs rt | .multu rs rt | .div rs rt | .divu rs rt => [operand5 rs, operand5 rt]
  | .add rd rs rt | .addu rd rs rt | .sub rd rs rt | .subu rd rs rt => [operand5 rd, operand5 rs, operand5 rt]
  | .and rd rs rt | .or rd rs rt | .xor rd rs rt | .nor rd rs rt => [operand5 rd, operand5 rs, operand5 rt]
  | .slt rd rs rt | .sltu rd rs rt => [operand5 rd, operand5 rs, operand5 rt]
  | .j target | .jal target => [operand26 target]
  | .beq rt rs offset | .bne rt rs offset => [operand5 rt, operand5 rs, operand16 offset]
  | .addi rt rs imm | .addiu rt rs imm | .slti rt rs imm | .sltiu rt rs imm => [operand5 rt, operand5 rs, operand16 imm]
  | .andi rt rs imm | .ori rt rs imm | .xori rt rs imm => [operand5 rt, operand5 rs, operand16 imm]
  | .lui rt imm => [operand5 rt, operand16 imm]
  | .lb rt offset base | .lw rt offset base | .sb rt offset base | .sw rt offset base =>
    [operand5 rt, operand16 offset, operand5 base]

/-- Every operand fits its field. -/
def Instr.wellFormed (i : Instr) : Bool := i.operands.all Operand.fits

end Sys2Proof
end

