-- ==== Sys2Proof/Certificates/Slice0/Obligations.lean ====
section
/-! DEFINITION. The statements for the provers. A statement about an instruction gives its word in plain arithmetic
(R51 to R53), what it decodes to, that it runs to a next state, and all that this state differs in. "The spec's decision
D<n>" marks a clause that rests on a choice the spec marks as its own (92_eei_decisions.md); "log <n>" is the model's
entry on it. What `Control` and `Advances` (Sys2Proof/Safety.lean) say of `pc`, `npc`, `DS`, `LDREG` and `HLGUARD` rests
on the spec's decisions D32 (log 29) and D15 to D17 (logs 14 to 16) wherever a statement uses them. -/

open Sys2Proof Sys2Proof.Machine

/-! ### Encoding -/

/-- Words of each family, two or more of each format, written out in 95_test_vectors.md section 2 from the encodings of
R57. Field places that the spec marks as its own choice (D11, D31): log 11. -/
def Obligations.SpecWordsDecode : Prop :=
  decode 0x00095100 = .ok (.sll 10 9 4) ∧
  decode 0x01095004 = .ok (.sllv 10 9 8) ∧
  decode 0x0100F809 = .ok (.jalr 31 8) ∧
  decode 0x0000000C = .ok .syscall ∧
  decode 0x00001810 = .ok (.mfhi 3) ∧
  decode 0x00850018 = .ok (.mult 4 5) ∧
  decode 0x01095022 = .ok (.sub 10 8 9) ∧
  decode 0x01095027 = .ok (.nor 10 8 9) ∧
  decode 0x0109502B = .ok (.sltu 10 8 9) ∧
  decode 0x080000C8 = .ok (.j 0xC8) ∧
  decode 0x0C0000C8 = .ok (.jal 0xC8) ∧
  decode 0x1408FFFD = .ok (.bne 8 0 0xFFFD) ∧
  decode 0x3C081234 = .ok (.lui 8 0x1234) ∧
  decode 0x812A0003 = .ok (.lb 10 3 9) ∧
  decode 0xA1280001 = .ok (.sb 8 1 9)

/-- Decoding the word of a well-formed instruction gives the instruction back, for every instruction and operand (R57,
R59). Field places that the spec marks as its own choice (D11, D31): log 11. -/
def Obligations.EncodeThenDecode : Prop :=
  ∀ i : Instr, i.wellFormed = true → decode (encode i) = .ok i

/-- A word that decodes is the word of the instruction it decodes to: no bit of it is left over (R57, R59). Field
places and zero fields that the spec marks as its own choice (D11, D31, D12): logs 11 and 12. -/
def Obligations.DecodeThenEncode : Prop :=
  ∀ (w : Word) (i : Instr), decode w = .ok i → i.wellFormed = true ∧ encode i = w

/-- R59 (which the spec derives from R57): `Decode(w)` is the one row of R57 that the word matches, with the fields of
the word. The places of `rs`, `rt`, `imm` and `shamt` and the zero fields of LUI, SLL, SRL, SRA and SYSCALL are the
spec's decisions D11 and D31, log 11. -/
def Obligations.DecodeFollowsTheTable : Prop :=
  (∀ (w : Word) (i : Instr), decode w = .ok i → i.row.selects w = true ∧ FieldsOf w i) ∧
  (∀ (w : Word) (i : Instr), i.row.selects w = true → ∃ j, decode w = .ok j ∧ j.row = i.row) ∧
  (∀ (w : Word) (i j : Instr), i.row.selects w = true → j.row.selects w = true → i.row = j.row)

/-- R60, the spec's decision D12, log 12: a fetched word that matches no row faults; and which words match none: unused
opcodes, unused function codes, and a listed operation with a non-zero masked field (the zero fields of LUI, SLL, SRL,
SRA and SYSCALL are the spec's decisions D11 and D31, log 11). -/
def Obligations.ReservedWordsFault : Prop :=
  (∀ (s : State) (w : Word), s.runEnded = false → s.fetch = .ok w → NoRow w →
    step s = .fault .reservedInstruction) ∧
  (∀ w : Word, bits w 26 6 ∈ [1, 6, 7] ∨ (16 ≤ bits w 26 6 ∧ bits w 26 6 ≤ 31) ∨ bits w 26 6 ∈ [33, 34] ∨
      (36 ≤ bits w 26 6 ∧ bits w 26 6 ≤ 39) ∨ bits w 26 6 ∈ [41, 42] ∨ 44 ≤ bits w 26 6 → NoRow w) ∧
  (∀ w : Word, bits w 26 6 = 0 →
      bits w 0 6 ∈ [1, 5, 10, 11, 13, 14, 15, 17] ∨ (19 ≤ bits w 0 6 ∧ bits w 0 6 ≤ 23) ∨
        (28 ≤ bits w 0 6 ∧ bits w 0 6 ≤ 31) ∨ bits w 0 6 ∈ [40, 41] ∨ 44 ≤ bits w 0 6 → NoRow w) ∧
  (∀ (w : Word) (i : Instr), SameOperation w i → i.row.selects w = false → NoRow w)

/-- R61 (which the spec derives): the all-zero word is `sll $0, $0, 0`, which changes nothing, whatever `GPR0_IS_ZERO`
is. -/
def Obligations.ZeroWordDoesNothing : Prop :=
  ∀ s : State, Executes 0x00000000 (.sll 0 0 0) s fun t => Frame s t [] false [] ∧ Advances s t

/-! ### State, reset, step -/

/-- R11, the spec's decision D1, log 10: register 0 under both values of `GPR0_IS_ZERO`; a discarded write discards
nothing else: ADD to register 0 takes the overflow exception all the same. That exception's entry, with nothing written,
is the spec's decisions D5 and D7, log 19. -/
def Obligations.RegisterZero : Prop :=
  ∀ (s : State) (v : Word),
    (s.params.gpr0IsZero = true → s.readReg 0 = 0 ∧ ∀ r, (s.writeReg 0 v).readReg r = s.readReg r) ∧
    (s.params.gpr0IsZero = false →
      (s.writeReg 0 v).readReg 0 = v ∧ ∀ r, r ≠ 0 → (s.writeReg 0 v).readReg r = s.readReg r) ∧
    (∀ r q, r ≠ 0 → (s.writeReg r v).readReg q = if q = r then v else s.readReg q) ∧
    (∀ rs rt, ¬ FitsWord ((s.readReg rs).toInt + (s.readReg rt).toInt) →
      ∃ t, exec (.add 0 rs rt) s = .next t ∧ Traps s t .overflow)

/-- R22, R231, the spec's decisions D2 and D3: the values of every launch state; what R22 leaves unspecified is whatever
the launch state holds. The host supplies `pc`: any multiple of 4, `RESET_PC` after reset. `State.reset` is the launch
state at its `RESET_PC`; the values it holds there are the model's choice (logs 2 to 6). -/
def Obligations.LaunchStateValues : Prop :=
  (∀ (p : Params) (w : BitVec 30) (regs : Vector Word 32) (hi lo : Word) (mem : Memory) (s : State),
    s = State.launch p w regs hi lo mem →
      s.params = p ∧ s.pc.toNat = 4 * w.toNat ∧ s.npc = s.pc + 4 ∧ (w = p.resetPcWord → s.pc = p.resetPc) ∧
      s.ds = false ∧ s.ldreg = none ∧ s.hlguard = 0 ∧ s.trap = none ∧
      (p.gpr0IsZero = true → s.readReg 0 = 0) ∧
      (∀ r : Reg, ¬ (p.gpr0IsZero = true ∧ r = 0) → s.readReg r = regs.get r) ∧
      s.hi = hi ∧ s.lo = lo ∧ ∀ a, s.mem.read a = mem.read a) ∧
  (∀ a : Word, Aligned a → ∃ w, ∀ p regs hi lo mem, (State.launch p w regs hi lo mem).pc = a) ∧
  ∃ regs hi lo mem, State.reset = State.launch State.reset.params State.reset.params.resetPcWord regs hi lo mem

/-- Every launch state with canonical memory, and `State.reset`, meets the invariant (R14, R22: the spec's
decisions D32, log 29, D2 and D3; the canonical form is the model's own, log 6). -/
def Obligations.LaunchMeetsInvariant : Prop :=
  State.reset.Inv ∧
  ∀ (p : Params) (w : BitVec 30) (regs : Vector Word 32) (hi lo : Word) (mem : Memory),
    mem.wf = true → (State.launch p w regs hi lo mem).Inv

/-- Every step keeps the invariant, from every state that meets it (R14, R21, R205: the spec's decisions D32, log 29,
and D5, log 19; the canonical form is the model's own, log 6). -/
def Obligations.StepKeepsInvariant : Prop :=
  ∀ s t : State, s.Inv → step s = .next t → t.Inv

/-- No step changes a parameter (R24) or a byte of the program (R42, the spec's decision D22, log 17). -/
def Obligations.StepKeepsParametersAndProgram : Prop :=
  ∀ s t : State, step s = .next t →
    t.params = s.params ∧ ∀ a : Word, inText s.params a = true → t.mem.read a.toNat = s.mem.read a.toNat

/-- A step runs the instruction that the bytes at `pc` decode to. `exec` includes the move past the instruction and the
delay slot (R15), so nothing is added around it (log 34). That the bytes at `pc` form the instruction word most
significant first is derived from R33 and R34, log 26; where a fetch may be made is the spec's decisions D13 and D22,
logs 13 and 17. -/
def Obligations.StepRunsTheDecodedInstruction : Prop :=
  ∀ (s : State) (i : Instr), s.runEnded = false → Aligned s.pc → inText s.params s.pc = true →
    decode (wordOfBytes (s.mem.read s.pc.toNat) (s.mem.read (s.pc.toNat + 1)) (s.mem.read (s.pc.toNat + 2))
      (s.mem.read (s.pc.toNat + 3))) = .ok i →
    s.hazard i = none → step s = exec i s

/-- A word loaded at `pc` is what the next step fetches and runs. Loading it changes nothing but that word of memory and
the map of memory, and adds to `MEM_DOMAIN` and to `TEXT_REGION` that word and no other (the model's way of loading a
program, log 32). -/
def Obligations.LoadedWordRuns : Prop :=
  ∀ (s u : State) (w : Word) (i : Instr), u = s.withFetchWord 32 w.toNat → Aligned s.pc → s.runEnded = false →
    decode w = .ok i → s.hazard i = none →
      u.fetch = .ok w ∧ step u = exec i u ∧
      (∀ r, u.readReg r = s.readReg r) ∧ u.hi = s.hi ∧ u.lo = s.lo ∧ u.pc = s.pc ∧ u.npc = s.npc ∧
      u.ds = s.ds ∧ u.ldreg = s.ldreg ∧ u.hlguard = s.hlguard ∧ u.trap = s.trap ∧ u.draws = s.draws ∧
      (∀ a, a ∉ wordBytes s.pc → u.mem.read a = s.mem.read a) ∧
      u.params = { s.params with
        memDomain := ⟨s.pc.toNat / 4, 1⟩ :: s.params.memDomain
        textRegion := ⟨s.pc.toNat / 4, 1⟩ :: s.params.textRegion } ∧
      ∀ a : Word,
        (inDomain u.params a = true ↔ inDomain s.params a = true ∨ a.toNat / 4 = s.pc.toNat / 4) ∧
        (inText u.params a = true ↔ inText s.params a = true ∨ a.toNat / 4 = s.pc.toNat / 4)

/-- R214, the order of the checks within one step, less `UnwrittenRead`, which this model does not raise (log 7): the
first that applies is the outcome. The faults are the spec's decisions D13, D23, D22, D12, D15, D16 and D17, logs 12 to
18. -/
def Obligations.FirstCheckDecides : Prop :=
  ∀ s : State, s.runEnded = false →
    (¬ Aligned s.pc → step s = .fault .unalignedFetch) ∧
    (Aligned s.pc → inDomain s.params s.pc = false → step s = .fault .unmappedAccess) ∧
    (Aligned s.pc → inDomain s.params s.pc = true → inText s.params s.pc = false → step s = .fault .textAccess) ∧
    (∀ w e, s.fetch = .ok w → decode w = .error e → step s = .fault .reservedInstruction) ∧
    (∀ w i, Fetches s w i → s.ds = true → isTransfer i = true → step s = .fault .branchInDelaySlot) ∧
    (∀ w i, Fetches s w i → ¬ (s.ds = true ∧ isTransfer i = true) → s.loadHazard i = true →
      step s = .fault .loadUseHazard) ∧
    (∀ w i, Fetches s w i → ¬ (s.ds = true ∧ isTransfer i = true) → s.loadHazard i = false → s.guardHazard i = true →
      step s = .fault .hiLoHazard) ∧
    (∀ w i a, Fetches s w i → s.hazard i = none → dataAddress s i = some a →
      (inDomain s.params a = false → step s = .fault .unmappedAccess) ∧
      (inDomain s.params a = true → inText s.params a = true → step s = .fault .textAccess))

/-- R16, the spec's decisions D13 and D14, logs 13 and 27: a misaligned `pc` faults; from an aligned `npc` every
instruction but JR and JALR leaves aligned addresses; the parameters are multiples of 4 (log 31); the increments
wrap. -/
def Obligations.ProgramCounterAlignment : Prop :=
  (∀ s : State, s.runEnded = false → ¬ Aligned s.pc → step s = .fault .unalignedFetch) ∧
  (∀ (s t : State) (i : Instr), exec i s = .next t → Aligned s.npc →
    (∀ rs, i ≠ .jr rs) → (∀ rd rs, i ≠ .jalr rd rs) → Aligned t.pc ∧ Aligned t.npc) ∧
  (∀ p : Params, Aligned p.resetPc ∧ Aligned p.excHandler) ∧
  (∀ (s t : State) (i : Instr), exec i s = .next t → s.npc = 0xFFFFFFFC → destination s i = none →
    (∀ c, ¬ Raises s i c) → t.pc = 0xFFFFFFFC ∧ t.npc = 0)

/-! ### Exceptions -/

/-- R190: SYSCALL takes the system-call trap, always, and not delayed. What the entry records and clears, and the zero
bits of the word, are the spec's decisions D5 and D31, logs 19 and 11. -/
def Obligations.SyscallTakesTheTrap : Prop :=
  ∀ s : State, Executes 0x0000000C .syscall s fun t => Traps s t .syscall

/-- R101, R102, R105: ADD, ADDI and SUB give the exact result where it is a 32-bit two's-complement value, and take the
overflow exception where it is not. That the destination is unwritten then, and the entry, are the spec's decisions D5
and D7, log 19; the field places of ADDI's word are D11, log 11. -/
def Obligations.TrappingArithmetic : Prop :=
  ∀ (s : State) (rd rs rt : Reg) (imm : Imm),
    (FitsWord ((s.readReg rs).toInt + (s.readReg rt).toInt) →
      Executes (rWord rs rt rd 0 32) (.add rd rs rt) s fun t =>
        Computes s t rd (BitVec.ofInt 32 ((s.readReg rs).toInt + (s.readReg rt).toInt))) ∧
    (¬ FitsWord ((s.readReg rs).toInt + (s.readReg rt).toInt) →
      Executes (rWord rs rt rd 0 32) (.add rd rs rt) s fun t => Traps s t .overflow) ∧
    (FitsWord ((s.readReg rs).toInt + imm.toInt) →
      Executes (iWord 8 rs rt imm) (.addi rt rs imm) s fun t =>
        Computes s t rt (BitVec.ofInt 32 ((s.readReg rs).toInt + imm.toInt))) ∧
    (¬ FitsWord ((s.readReg rs).toInt + imm.toInt) →
      Executes (iWord 8 rs rt imm) (.addi rt rs imm) s fun t => Traps s t .overflow) ∧
    (FitsWord ((s.readReg rs).toInt - (s.readReg rt).toInt) →
      Executes (rWord rs rt rd 0 34) (.sub rd rs rt) s fun t =>
        Computes s t rd (BitVec.ofInt 32 ((s.readReg rs).toInt - (s.readReg rt).toInt))) ∧
    (¬ FitsWord ((s.readReg rs).toInt - (s.readReg rt).toInt) →
      Executes (rWord rs rt rd 0 34) (.sub rd rs rt) s fun t => Traps s t .overflow)

/-- R100: the overflow test on the 33-bit result, the mathematical range and the sign rule are one and the same; where
overflow holds, ADD, ADDI and SUB trap with their destination unwritten (the entry is the spec's decisions D5 and D7,
log 19), and where it does not hold they do not trap but go on to the next instruction. -/
def Obligations.OverflowTest : Prop :=
  (∀ a b : Word, (overflows (wideSum a b) = true ↔ ¬ FitsWord (a.toInt + b.toInt)) ∧
    (overflows (wideSum a b) = true ↔ a.msb = b.msb ∧ (a + b).msb ≠ a.msb)) ∧
  (∀ a b : Word, (overflows (wideDifference a b) = true ↔ ¬ FitsWord (a.toInt - b.toInt)) ∧
    (overflows (wideDifference a b) = true ↔ a.msb ≠ b.msb ∧ (a - b).msb = b.msb)) ∧
  (∀ (s : State) (i : Instr) (z : Int), exactResult s i = some z →
    ∃ t, exec i s = .next t ∧ (¬ FitsWord z → Traps s t .overflow) ∧
      (FitsWord z → t.trap = s.trap ∧ Advances s t))

/-- R200, R201, R205, R209: an instruction that raises an exception takes it, and one that raises none leaves the trap
record alone and goes on; ADD, ADDI and SUB on overflow and SYSCALL are the only ones that raise. The entry is the
spec's decisions D5 and D7, log 19. -/
def Obligations.OnlyTheseInstructionsTrap : Prop :=
  ∀ (s t : State) (i : Instr), exec i s = .next t →
    (∀ c, Raises s i c → Traps s t c) ∧
    ((∀ c, ¬ Raises s i c) → t.trap = s.trap ∧ t.pc = s.npc) ∧
    (∀ c d, Raises s i c → Raises s i d → c = d)

/-- R207, the spec's decision D8, log 21: an exception in the delay slot discards the pending transfer; the record says
so and holds the delay-slot instruction's own address; every register, the link register among them, keeps its value.
The entry itself is D5 and D7, log 19. -/
def Obligations.TrapInDelaySlot : Prop :=
  ∀ (s u t : State) (i j : Instr) (c : Cause), isTransfer i = true → exec i s = .next u → Raises u j c →
    exec j u = .next t →
      t.trap = some ⟨c, s.npc, true⟩ ∧ t.pc = s.params.excHandler ∧ t.npc = s.params.excHandler + 4 ∧ t.ds = false ∧
      ∀ r, t.readReg r = u.readReg r

/-- R212, the spec's decisions D6 and D33, log 20: with `TRAP_HALTS` the state after the trap is the final one, a normal
end for SYSCALL and an error for an overflow; without it the machine goes on stepping: no state at all, one inside the
handler included, is refused a step. A run without a trap is never refused one either. -/
def Obligations.TrapEndsTheRun : Prop :=
  (∀ (s t : State) (c : Cause), Traps s t c → s.params.trapHalts = true →
    step t = .refused .runEnded ∧ (t.endedNormally ↔ c = .syscall) ∧ (t.endedInError ↔ c = .overflow)) ∧
  (∀ s : State, s.params.trapHalts = false → ∀ r, step s ≠ .refused r) ∧
  (∀ s : State, s.trap = none → ∀ r, step s ≠ .refused r)

/-! ### Arithmetic -/

/-- R103, R104, R110: ADDU, ADDIU and SUBU give the exact result modulo 2^32 and never trap. The field places of ADDIU's
word are the spec's decision D11, log 11. -/
def Obligations.WrappingArithmetic : Prop :=
  ∀ (s : State) (rd rs rt : Reg) (imm : Imm),
    (Executes (rWord rs rt rd 0 33) (.addu rd rs rt) s fun t =>
      Computes s t rd (BitVec.ofNat 32 ((s.readReg rs).toNat + (s.readReg rt).toNat))) ∧
    (Executes (iWord 9 rs rt imm) (.addiu rt rs imm) s fun t =>
      Computes s t rt (BitVec.ofInt 32 ((s.readReg rs).toInt + imm.toInt))) ∧
    (Executes (rWord rs rt rd 0 35) (.subu rd rs rt) s fun t =>
      Computes s t rd (BitVec.ofInt 32 ((s.readReg rs).toInt - (s.readReg rt).toInt)))

/-- R106, R107: HI and LO together are the exact 64-bit product; no general register is written. The
layout of MULTU's word is derived in R54 (log 11); the control state (`Advances`) is D32, log 29, and logs 14 to 16. -/
def Obligations.ExactProducts : Prop :=
  ∀ (s : State) (rs rt : Reg),
    (Executes (rWord rs rt 0 0 24) (.mult rs rt) s fun t =>
      t.hi.toInt * 2 ^ 32 + t.lo.toNat = (s.readReg rs).toInt * (s.readReg rt).toInt ∧
      Frame s t [] true [] ∧ Advances s t) ∧
    (Executes (rWord rs rt 0 0 25) (.multu rs rt) s fun t =>
      t.hi.toNat * 2 ^ 32 + t.lo.toNat = (s.readReg rs).toNat * (s.readReg rt).toNat ∧
      Frame s t [] true [] ∧ Advances s t)

/-- R108: the quotient is rounded toward zero and the remainder has the sign of the dividend (the spec's decision D18,
log 9); for a zero divisor and for -2^31 / -1 both registers get draws, of which nothing is said (D19, D20, log 8). -/
def Obligations.SignedDivision : Prop :=
  ∀ (s : State) (rs rt : Reg) (n d : Int), n = (s.readReg rs).toInt → d = (s.readReg rt).toInt →
    (d ≠ 0 → ¬ (n = -2 ^ 31 ∧ d = -1) →
      Executes (rWord rs rt 0 0 26) (.div rs rt) s fun t =>
        n = d * t.lo.toInt + t.hi.toInt ∧ |t.hi.toInt| < |d| ∧ 0 ≤ n * t.hi.toInt ∧
        Frame s t [] true [] ∧ Advances s t ∧ t.draws = s.draws) ∧
    (d = 0 ∨ (n = -2 ^ 31 ∧ d = -1) →
      Executes (rWord rs rt 0 0 26) (.div rs rt) s fun t =>
        t.lo = Config.draw s.draws ∧ t.hi = Config.draw (s.draws + 1) ∧ t.draws = s.draws + 2 ∧
        Frame s t [] true [] ∧ Advances s t)

/-- R109: the unsigned quotient and remainder; for a zero divisor both registers get draws, of which nothing is said
(the spec's decision D19, log 8). -/
def Obligations.UnsignedDivision : Prop :=
  ∀ (s : State) (rs rt : Reg) (n d : Nat), n = (s.readReg rs).toNat → d = (s.readReg rt).toNat →
    (d ≠ 0 →
      Executes (rWord rs rt 0 0 27) (.divu rs rt) s fun t =>
        n = d * t.lo.toNat + t.hi.toNat ∧ t.hi.toNat < d ∧
        Frame s t [] true [] ∧ Advances s t ∧ t.draws = s.draws) ∧
    (d = 0 →
      Executes (rWord rs rt 0 0 27) (.divu rs rt) s fun t =>
        t.lo = Config.draw s.draws ∧ t.hi = Config.draw (s.draws + 1) ∧ t.draws = s.draws + 2 ∧
        Frame s t [] true [] ∧ Advances s t)

/-- R111: the laws of arithmetic. ADDU, ADDIU and SUBU give the low 32 bits of the exact result, which are the same
whether the operands are read as signed or as unsigned; ADD, ADDI and SUB, where they do not trap, do just the same;
ADDIU sign-extends its immediate; MULT and MULTU give the exact product; none keeps a carry or sets a flag, since nothing
but its destination changes. -/
def Obligations.ArithmeticLaws : Prop :=
  ∀ (s : State) (rd rs rt : Reg) (imm : Imm) (a b : Word), a = s.readReg rs → b = s.readReg rt →
    (∃ t, exec (.addu rd rs rt) s = .next t ∧ Assigns s t rd (BitVec.ofInt 32 (a.toInt + b.toInt)) ∧
      Assigns s t rd (BitVec.ofNat 32 (a.toNat + b.toNat))) ∧
    (∃ t, exec (.addiu rt rs imm) s = .next t ∧ Assigns s t rt (BitVec.ofInt 32 (a.toInt + imm.toInt)) ∧
      Assigns s t rt (BitVec.ofInt 32 (a.toNat + imm.toInt))) ∧
    (∃ t, exec (.subu rd rs rt) s = .next t ∧ Assigns s t rd (BitVec.ofInt 32 (a.toInt - b.toInt)) ∧
      Assigns s t rd (BitVec.ofInt 32 (a.toNat - b.toNat))) ∧
    (FitsWord (a.toInt + b.toInt) → exec (.add rd rs rt) s = exec (.addu rd rs rt) s) ∧
    (FitsWord (a.toInt + imm.toInt) → exec (.addi rt rs imm) s = exec (.addiu rt rs imm) s) ∧
    (FitsWord (a.toInt - b.toInt) → exec (.sub rd rs rt) s = exec (.subu rd rs rt) s) ∧
    (∃ t, exec (.mult rs rt) s = .next t ∧ t.hi.toInt * 2 ^ 32 + t.lo.toNat = a.toInt * b.toInt ∧
      Frame s t [] true []) ∧
    (∃ t, exec (.multu rs rt) s = .next t ∧ t.hi.toNat * 2 ^ 32 + t.lo.toNat = a.toNat * b.toNat ∧
      Frame s t [] true []) ∧
    ∀ t, exec (.div rs rt) s = .next t ∨ exec (.divu rs rt) s = .next t → Frame s t [] true []

/-- R13: HI and LO are written only by MULT, MULTU, DIV and DIVU, each of which writes both (what they held before is
gone), and read only by MFHI (HI) and MFLO (LO): an instruction that does not read one gives the same outcome whatever
it holds. HI receives the upper word of a product or the remainder, LO the lower word or the quotient, where there is a
quotient (of its rounding nothing is said here). -/
def Obligations.HiLoWritersAndReaders : Prop :=
  (∀ (s t : State) (i : Instr), exec i s = .next t → writesHiLo i = false → t.hi = s.hi ∧ t.lo = s.lo) ∧
  (∀ (s : State) (i : Instr) (h l : Word), writesHiLo i = true → exec i (s.writeHiLo h l) = exec i s) ∧
  (∀ (s : State) (i : Instr) (h l : Word), writesHiLo i = false → readsHiLo i = false →
    exec i (s.writeHiLo h l) = mapNext (fun t => t.writeHiLo h l) (exec i s)) ∧
  (∀ (s : State) (rd : Reg) (h l : Word),
    exec (.mfhi rd) (s.writeHiLo s.hi l) = mapNext (fun t => t.writeHiLo s.hi l) (exec (.mfhi rd) s) ∧
    exec (.mflo rd) (s.writeHiLo h s.lo) = mapNext (fun t => t.writeHiLo h s.lo) (exec (.mflo rd) s) ∧
    (∃ t, exec (.mfhi rd) s = .next t ∧ Assigns s t rd s.hi) ∧
    ∃ t, exec (.mflo rd) s = .next t ∧ Assigns s t rd s.lo) ∧
  (∀ (s : State) (rs rt : Reg) (a b : Word), a = s.readReg rs → b = s.readReg rt →
    (∃ t, exec (.mult rs rt) s = .next t ∧ t.hi.toInt * 2 ^ 32 + t.lo.toNat = a.toInt * b.toInt) ∧
    (∃ t, exec (.multu rs rt) s = .next t ∧ t.hi.toNat * 2 ^ 32 + t.lo.toNat = a.toNat * b.toNat) ∧
    (b ≠ 0 → ¬ (a.toInt = -2 ^ 31 ∧ b.toInt = -1) →
      ∃ t, exec (.div rs rt) s = .next t ∧ a.toInt = b.toInt * t.lo.toInt + t.hi.toInt ∧ |t.hi.toInt| < |b.toInt|) ∧
    (b ≠ 0 →
      ∃ t, exec (.divu rs rt) s = .next t ∧ a.toNat = b.toNat * t.lo.toNat + t.hi.toNat ∧ t.hi.toNat < b.toNat))

/-! ### Logical, shift, compare -/

/-- R121, R123, R125, R127: AND, OR, XOR and NOR, bit by bit. The layouts of the words of AND and XOR are derived in R54
(log 11); the control state (`Advances`) is D32, log 29, and logs 14 to 16. -/
def Obligations.LogicalRegisterForms : Prop :=
  ∀ (s : State) (rd rs rt : Reg),
    (Executes (rWord rs rt rd 0 36) (.and rd rs rt) s fun t => ∃ v, Computes s t rd v ∧
      ∀ k < 32, v.getLsbD k = ((s.readReg rs).getLsbD k && (s.readReg rt).getLsbD k)) ∧
    (Executes (rWord rs rt rd 0 37) (.or rd rs rt) s fun t => ∃ v, Computes s t rd v ∧
      ∀ k < 32, v.getLsbD k = ((s.readReg rs).getLsbD k || (s.readReg rt).getLsbD k)) ∧
    (Executes (rWord rs rt rd 0 38) (.xor rd rs rt) s fun t => ∃ v, Computes s t rd v ∧
      ∀ k < 32, v.getLsbD k = ((s.readReg rs).getLsbD k ^^ (s.readReg rt).getLsbD k)) ∧
    (Executes (rWord rs rt rd 0 39) (.nor rd rs rt) s fun t => ∃ v, Computes s t rd v ∧
      ∀ k < 32, v.getLsbD k = !((s.readReg rs).getLsbD k || (s.readReg rt).getLsbD k))

/-- R122, R124, R126: ANDI, ORI and XORI with the immediate extended by zeros (its bits from 16 up are 0). That
extension follows the spec's resolutions C1 and C2 of its source's damaged operation lines, log 33; the field places of
the words are the spec's decision D11, log 11. -/
def Obligations.LogicalImmediateForms : Prop :=
  ∀ (s : State) (rt rs : Reg) (imm : Imm),
    (Executes (iWord 12 rs rt imm) (.andi rt rs imm) s fun t => ∃ v, Computes s t rt v ∧
      ∀ k < 32, v.getLsbD k = if k < 16 then (s.readReg rs).getLsbD k && imm.getLsbD k else false) ∧
    (Executes (iWord 13 rs rt imm) (.ori rt rs imm) s fun t => ∃ v, Computes s t rt v ∧
      ∀ k < 32, v.getLsbD k =
        if k < 16 then (s.readReg rs).getLsbD k || imm.getLsbD k else (s.readReg rs).getLsbD k) ∧
    (Executes (iWord 14 rs rt imm) (.xori rt rs imm) s fun t => ∃ v, Computes s t rt v ∧
      ∀ k < 32, v.getLsbD k =
        if k < 16 then (s.readReg rs).getLsbD k ^^ imm.getLsbD k else (s.readReg rs).getLsbD k)

/-- R131, R132, R133: SLL multiplies by 2^n modulo 2^32, SRL divides the unsigned value rounding down, SRA divides the
signed value rounding toward minus infinity, n being `shamt`. The place of `shamt` in the word and the zero bits
25..21 are the spec's decision D11, log 11. -/
def Obligations.ConstantShifts : Prop :=
  ∀ (s : State) (rd rt : Reg) (shamt : Shamt),
    (Executes (rWord 0 rt rd shamt 0) (.sll rd rt shamt) s fun t =>
      Computes s t rd (BitVec.ofNat 32 ((s.readReg rt).toNat * 2 ^ shamt.val))) ∧
    (Executes (rWord 0 rt rd shamt 2) (.srl rd rt shamt) s fun t =>
      Computes s t rd (BitVec.ofNat 32 ((s.readReg rt).toNat / 2 ^ shamt.val))) ∧
    (Executes (rWord 0 rt rd shamt 3) (.sra rd rt shamt) s fun t =>
      Computes s t rd (BitVec.ofInt 32 ((s.readReg rt).toInt.fdiv (2 ^ shamt.val))))

/-- R134, R135, R136: the same with the amount in the low five bits of `x[rs]`. The layouts of the three words are
derived in R54 (log 11); the control state (`Advances`) is D32, log 29, and logs 14 to 16. -/
def Obligations.VariableShifts : Prop :=
  ∀ (s : State) (rd rt rs : Reg) (n : Nat), n = (s.readReg rs).toNat % 32 →
    (Executes (rWord rs rt rd 0 4) (.sllv rd rt rs) s fun t =>
      Computes s t rd (BitVec.ofNat 32 ((s.readReg rt).toNat * 2 ^ n))) ∧
    (Executes (rWord rs rt rd 0 6) (.srlv rd rt rs) s fun t =>
      Computes s t rd (BitVec.ofNat 32 ((s.readReg rt).toNat / 2 ^ n))) ∧
    (Executes (rWord rs rt rd 0 7) (.srav rd rt rs) s fun t =>
      Computes s t rd (BitVec.ofInt 32 ((s.readReg rt).toInt.fdiv (2 ^ n))))

/-- R141 to R144: 1 if the left side is strictly less, else 0; SLTIU compares with the sign-extended immediate read as
unsigned. The field places of the immediate forms' words are the spec's decision D11, log 11. -/
def Obligations.Comparisons : Prop :=
  ∀ (s : State) (rd rs rt : Reg) (imm : Imm),
    (Executes (rWord rs rt rd 0 42) (.slt rd rs rt) s fun t =>
      Computes s t rd (if (s.readReg rs).toInt < (s.readReg rt).toInt then 1 else 0)) ∧
    (Executes (rWord rs rt rd 0 43) (.sltu rd rs rt) s fun t =>
      Computes s t rd (if (s.readReg rs).toNat < (s.readReg rt).toNat then 1 else 0)) ∧
    (Executes (iWord 10 rs rt imm) (.slti rt rs imm) s fun t =>
      Computes s t rt (if (s.readReg rs).toInt < imm.toInt then 1 else 0)) ∧
    (Executes (iWord 11 rs rt imm) (.sltiu rt rs imm) s fun t =>
      Computes s t rt
        (if (s.readReg rs).toNat < (if imm.toNat < 0x8000 then imm.toNat else imm.toNat + 0xFFFF0000) then 1 else 0))

/-! ### Constants and moves -/

/-- R180: LUI. The field places of its word and the zero bits 25..21 are the spec's decision D11, log 11. -/
def Obligations.LoadUpperImmediate : Prop :=
  ∀ (s : State) (rt : Reg) (imm : Imm),
    Executes (iWord 15 0 rt imm) (.lui rt imm) s fun t => Computes s t rt (BitVec.ofNat 32 (imm.toNat * 2 ^ 16))

/-- R181, R182: MFHI and MFLO copy HI and LO, which keep their values. That they start the
two-instruction guard, `HLGUARD` = 2, is the spec's own bookkeeping (R21, D17), log 16. -/
def Obligations.MovesFromHiAndLo : Prop :=
  ∀ (s : State) (rd : Reg),
    (Executes (rWord 0 0 rd 0 16) (.mfhi rd) s fun t =>
      Sets s t rd s.hi ∧ Control s t (s.npc + 4) false none 2) ∧
    (Executes (rWord 0 0 rd 0 18) (.mflo rd) s fun t =>
      Sets s t rd s.lo ∧ Control s t (s.npc + 4) false none 2)

/-! ### Memory -/

/-- R31: the effective address is the base plus the signed offset, modulo 2^32 (the wrap is the spec's decision D28,
log 27). -/
def Obligations.EffectiveAddress : Prop :=
  ∀ (s : State) (base : Reg) (offset : Imm),
    ((s.effectiveAddress base offset).toNat : Int) = ((s.readReg base).toNat + offset.toInt) % 2 ^ 32

/-- R151, R152: LB loads the addressed byte sign-extended, LW the big-endian word that contains the addressed byte,
where memory exists and is not the program's. That the register holds the value when the load's own step ends is the
spec's decision D16, log 15; the byte order is derived, log 26; the field places of the words are D11, log 11. -/
def Obligations.LoadResults : Prop :=
  ∀ (s : State) (rt base : Reg) (offset : Imm) (a : Word) (m : Nat),
    a = s.effectiveAddress base offset → m = a.toNat / 4 * 4 →
    inDomain s.params a = true → inText s.params a = false →
      (Executes (iWord 32 base rt offset) (.lb rt offset base) s fun t =>
        Sets s t rt (BitVec.ofInt 32 (s.mem.read a.toNat).toInt) ∧
        Control s t (s.npc + 4) false (some rt) (s.hlguard.val - 1)) ∧
      (Executes (iWord 35 base rt offset) (.lw rt offset base) s fun t =>
        Sets s t rt (BitVec.ofNat 32 ((s.mem.read m).toNat * 2 ^ 24 + (s.mem.read (m + 1)).toNat * 2 ^ 16 +
          (s.mem.read (m + 2)).toNat * 2 ^ 8 + (s.mem.read (m + 3)).toNat)) ∧
        Control s t (s.npc + 4) false (some rt) (s.hlguard.val - 1))

/-- R153, R154: SB stores the low byte of the register at the address and changes no other byte (the spec's decision
D21, log 25); SW stores the register, most significant byte first (log 26), to the word that contains the addressed
byte. That memory holds the value when the store's own step ends is D25, log 24; the field places of the words are D11,
log 11. -/
def Obligations.StoreResults : Prop :=
  ∀ (s : State) (rt base : Reg) (offset : Imm) (a : Word),
    a = s.effectiveAddress base offset → inDomain s.params a = true → inText s.params a = false →
      (Executes (iWord 40 base rt offset) (.sb rt offset base) s fun t =>
        t.mem.read a.toNat = BitVec.ofNat 8 (s.readReg rt).toNat ∧
        Frame s t [] false [a.toNat] ∧ Advances s t) ∧
      (Executes (iWord 43 base rt offset) (.sw rt offset base) s fun t =>
        (∀ k < 4, t.mem.read (a.toNat / 4 * 4 + k) = BitVec.ofNat 8 ((s.readReg rt).toNat / 2 ^ (24 - 8 * k))) ∧
        Frame s t [] false [a.toNat / 4 * 4, a.toNat / 4 * 4 + 1, a.toNat / 4 * 4 + 2, a.toNat / 4 * 4 + 3] ∧
        Advances s t)

/-- R43, the spec's decision D23, log 18: an access outside `MEM_DOMAIN`, by the fetch or by any load or store, faults;
with every word of the address space in `MEM_DOMAIN` that never happens. -/
def Obligations.UnbackedAccessFaults : Prop :=
  (∀ s : State, s.runEnded = false → Aligned s.pc → inDomain s.params s.pc = false →
    step s = .fault .unmappedAccess) ∧
  (∀ (s : State) (i : Instr) (a : Word), dataAddress s i = some a → inDomain s.params a = false →
    exec i s = .fault .unmappedAccess) ∧
  (∀ s : State, (∀ a, inDomain s.params a = true) → step s ≠ .fault .unmappedAccess)

/-- R42, the spec's decision D22, log 17: a load or store that addresses a word of the program faults, whatever it is,
and is the only instruction that faults with `TextAccess`. -/
def Obligations.ProgramAccessFaults : Prop :=
  ∀ (s : State) (i : Instr),
    exec i s = .fault .textAccess ↔ ∃ a, dataAddress s i = some a ∧ inText s.params a = true

/-- R39: a byte access has no alignment requirement: it goes on exactly where a word access to the containing word does. A
word access ignores bits 1..0 of the address: two addresses in one word are one and the same access; it accesses the
whole word that contains the addressed byte, neither split nor rotated, and does not trap. That the register or the
memory holds the word when the access's own step ends is the spec's decisions D16, log 15, and D25, log 24; the order of
the bytes in the word (`readWord`) is derived, log 26. -/
def Obligations.WordAccessIgnoresLowBits : Prop :=
  ∀ (s : State) (rt rt' base base' : Reg) (offset offset' : Imm) (m : Nat),
    m = (s.effectiveAddress base offset).toNat / 4 →
    m = (s.effectiveAddress base' offset').toNat / 4 →
      exec (.lw rt offset base) s = exec (.lw rt offset' base') s ∧
      exec (.sw rt offset base) s = exec (.sw rt offset' base') s ∧
      (∀ t, exec (.lw rt offset base) s = .next t → Assigns s t rt (s.mem.readWord (4 * m))) ∧
      (∀ t, exec (.sw rt offset base) s = .next t →
        t.mem.readWord (4 * m) = s.readReg rt ∧ Frame s t [] false [4 * m, 4 * m + 1, 4 * m + 2, 4 * m + 3]) ∧
      ((∃ t, exec (.lb rt' offset' base') s = .next t) ↔ ∃ t, exec (.lw rt offset base) s = .next t) ∧
      ((∃ t, exec (.sb rt' offset' base') s = .next t) ↔ ∃ t, exec (.sw rt offset base) s = .next t)

/-- R34 (which the spec derives, log 26): a word write seen by byte reads, four byte writes seen by a word read, and the
opcode in the byte at the instruction's own address. -/
def Obligations.MixedWidths : Prop :=
  (∀ (s t : State) (a v : Word) (k : Nat), Aligned a → k < 4 → s.storeWord a v = .ok t →
    t.loadByte (a + BitVec.ofNat 32 k) = .ok (BitVec.ofNat 8 (v.toNat / 2 ^ (24 - 8 * k)))) ∧
  (∀ (s t0 t1 t2 t3 : State) (a : Word) (b0 b1 b2 b3 : Byte), Aligned a →
    s.storeByte a b0 = .ok t0 → t0.storeByte (a + 1) b1 = .ok t1 → t1.storeByte (a + 2) b2 = .ok t2 →
    t2.storeByte (a + 3) b3 = .ok t3 → t3.loadWord a = .ok (b0 ++ b1 ++ b2 ++ b3)) ∧
  (∀ (s : State) (w : Word), s.fetch = .ok w → bits w 26 6 = (s.mem.read s.pc.toNat).toNat / 4)

/-- A load right after a store to the same place gives the stored value (R41, the spec's decisions D24 and D25, log 24):
SW then LW of the same word, and SB then LB of the same byte. That the load's register holds the value when the load's
own step ends is D16, log 15. -/
def Obligations.StoreThenLoad : Prop :=
  ∀ (s t : State) (rt base rt' base' : Reg) (offset offset' : Imm), s.hardwired rt' = false →
    (exec (.sw rt offset base) s = .next t →
      (t.effectiveAddress base' offset').toNat / 4 = (s.effectiveAddress base offset).toNat / 4 →
      ∃ u, exec (.lw rt' offset' base') t = .next u ∧ u.readReg rt' = s.readReg rt) ∧
    (exec (.sb rt offset base) s = .next t →
      t.effectiveAddress base' offset' = s.effectiveAddress base offset →
      ∃ u, exec (.lb rt' offset' base') t = .next u ∧
        u.readReg rt' = BitVec.ofInt 32 ((s.readReg rt).toInt.bmod (2 ^ 8)))

/-- Canonical memories that read alike everywhere are the same data (the model's own form of memory, log 6). -/
def Obligations.EqualMemoriesAreEqualData : Prop :=
  ∀ m m' : Memory, m.wf = true → m'.wf = true → (∀ a, m.read a = m'.read a) → m = m'

/-! ### Branches and jumps -/

/-- R161, R162: BEQ and BNE continue, after the delay slot, at the delay slot's address plus four times the signed
offset if their condition holds, else after the delay slot; they change nothing else. The pair `pc`, `npc` is the
spec's decision D32, log 29; the field places of the words D11, log 11. -/
def Obligations.BranchResults : Prop :=
  ∀ (s : State) (rt rs : Reg) (offset : Imm) (taken : Word),
    taken = BitVec.ofInt 32 (s.npc.toNat + 4 * offset.toInt) →
      (Executes (iWord 4 rs rt offset) (.beq rt rs offset) s fun t =>
        Frame s t [] false [] ∧
        Control s t (if s.readReg rs = s.readReg rt then taken else s.npc + 4) true none (s.hlguard.val - 1)) ∧
      (Executes (iWord 5 rs rt offset) (.bne rt rs offset) s fun t =>
        Frame s t [] false [] ∧
        Control s t (if s.readReg rs ≠ s.readReg rt then taken else s.npc + 4) true none (s.hlguard.val - 1))

/-- R171 to R174: J and JAL continue, after the delay slot, at the target in the jump's own 256 MiB region (the spec's
decision D27), JR and JALR at the register's value before the link is written (D26, log 28); JAL links in register 31,
JALR in `rd`, with `ia + 8`, modulo 2^32 (D14, log 27). The pair `pc`, `npc` is D32, log 29; the place of `target` in
the word is derived in R53, log 11. -/
def Obligations.JumpResults : Prop :=
  ∀ (s : State) (target : Target) (rd rs : Reg) (region : Word),
    region = BitVec.ofNat 32 (s.pc.toNat / 2 ^ 28 * 2 ^ 28 + target.toNat * 4) →
      (Executes (jWord 2 target) (.j target) s fun t =>
        Frame s t [] false [] ∧ Control s t region true none (s.hlguard.val - 1)) ∧
      (Executes (jWord 3 target) (.jal target) s fun t =>
        Sets s t 31 (s.pc + 8) ∧ Control s t region true none (s.hlguard.val - 1)) ∧
      (Executes (rWord rs 0 0 0 8) (.jr rs) s fun t =>
        Frame s t [] false [] ∧ Control s t (s.readReg rs) true none (s.hlguard.val - 1)) ∧
      (Executes (rWord rs 0 rd 0 9) (.jalr rd rs) s fun t =>
        Sets s t rd (s.pc + 8) ∧ Control s t (s.readReg rs) true none (s.hlguard.val - 1))

/-- R233: the instruction that follows a branch or jump in memory executes before control reaches the target, whether
or not the branch is taken, and sees the link already written; an exception is not delayed. The pair `pc`,
`npc` is the spec's decision D32, log 29; the entry of an exception D5 and D7, log 19. -/
def Obligations.DelaySlotExecutesFirst : Prop :=
  (∀ (s u t : State) (w w' : Word) (i j : Instr), s.Inv → s.ds = false → Fetches s w i → isTransfer i = true →
    step s = .next u → Fetches u w' j → (∀ c, ¬ Raises u j c) → step u = .next t →
      u.pc = s.pc + 4 ∧ u.ds = true ∧ destination s i = some t.pc ∧
      (∀ target, i = .jal target → u.readReg 31 = s.pc + 8) ∧
      (∀ rd rs, i = .jalr rd rs → s.hardwired rd = false → u.readReg rd = s.pc + 8)) ∧
  (∀ (s u : State) (w : Word) (i : Instr) (c : Cause), Fetches s w i → Raises s i c → step s = .next u →
    u.pc = s.params.excHandler)

/-! ### Bookkeeping and hazards -/

/-- R21 (which the spec derives): the bookkeeping after an instruction that raises nothing, and after one that
raises. The bookkeeping itself is the spec's decisions D15, D16, D17 and D5, logs 14, 15, 16 and 19. -/
def Obligations.BookkeepingUpdate : Prop :=
  ∀ (s t : State) (i : Instr), exec i s = .next t →
    ((∀ c, ¬ Raises s i c) →
      (t.ds = true ↔ (destination s i).isSome) ∧
      t.ldreg = (match i with | .lb rt _ _ => some rt | .lw rt _ _ => some rt | _ => none) ∧
      t.hlguard.val = (match i with | .mfhi _ => 2 | .mflo _ => 2 | _ => s.hlguard.val - 1)) ∧
    (∀ c, Raises s i c → t.ds = false ∧ t.ldreg = none ∧ t.hlguard.val = 0)

/-- R15's last lines: an instruction that raises nothing moves `npc` to `pc`, and `npc` to its destination or
on. The pair is the spec's decision D32, log 29; its wrap D14, log 27; the region of J and JAL D27, log 28. -/
def Obligations.ControlMovesOn : Prop :=
  ∀ (s t : State) (i : Instr), exec i s = .next t → (∀ c, ¬ Raises s i c) →
    t.pc = s.npc ∧ t.npc = (destination s i).getD (s.npc + 4)

/-- No instruction changes a general register outside R57's "writes", HI or LO unless it is MULT, MULTU, DIV or DIVU
(R13), a byte of memory but those it stores to (R38, R153, R154), or a parameter (R24). That SB leaves the other bytes
of the word alone is the spec's decision D21 (C4), log 25. -/
def Obligations.NothingElseChanges : Prop :=
  ∀ (s t : State) (i : Instr), exec i s = .next t →
    (∀ r, r ∉ writesOf i → t.readReg r = s.readReg r) ∧
    ((∀ rs rt, i ≠ .mult rs rt ∧ i ≠ .multu rs rt ∧ i ≠ .div rs rt ∧ i ≠ .divu rs rt) → t.hi = s.hi ∧ t.lo = s.lo) ∧
    (∀ a, a ∉ storedBytes s i → t.mem.read a = s.mem.read a) ∧
    t.params = s.params

/-- R234, the spec's decision D15, log 14: a branch or jump fetched right after a branch or jump, taken or not, faults.
-/
def Obligations.BranchInDelaySlotFaults : Prop :=
  ∀ (s u : State) (w w' : Word) (i j : Instr), Fetches s w i → isTransfer i = true → step s = .next u →
    Fetches u w' j → isTransfer j = true → step u = .fault .branchInDelaySlot

/-- R236, the spec's decision D16, log 15, with `LOAD_USE` = `fault` and `new_value`: the instruction after LB or LW
that reads or writes the load's target faults, register 0 exempt where it is hardwired; under `new_value` there is no
such fault. -/
def Obligations.LoadUseRule : Prop :=
  (∀ (s u : State) (w w' : Word) (i j : Instr) (r : Reg), Fetches s w i → loadTarget i = some r → step s = .next u →
    Fetches u w' j → u.params.loadUse = .fault →
      (s.hardwired r = false → r ∈ readsOf j ∨ r ∈ writesOf j → step u = .fault .loadUseHazard) ∧
      (s.hardwired r = true ∨ (r ∉ readsOf j ∧ r ∉ writesOf j) → step u ≠ .fault .loadUseHazard)) ∧
  (∀ s : State, s.params.loadUse = .newValue → step s ≠ .fault .loadUseHazard)

/-- The claim of R236 (the spec's decision D16, log 15) that makes the load-use rule safe: an instruction that neither
reads nor writes a register gives the same outcome whether that register gets its value before the instruction or
after it. -/
def Obligations.LoadDelayIsInvisible : Prop :=
  ∀ (s : State) (i : Instr) (r : Reg) (v : Word), r ∉ readsOf i → r ∉ writesOf i →
    exec i (s.writeReg r v) = mapNext (fun t => t.writeReg r v) (exec i s)

/-- R238, the spec's decision D17, log 16, with `HILO_RULE` = `fault` and `ignore`: MULT, MULTU, DIV or DIVU as the
first or the second instruction after MFHI or MFLO faults, as the third it does not; under `ignore` there is no such
fault. -/
def Obligations.HiLoRule : Prop :=
  (∀ (s u : State) (w w' : Word) (i j : Instr), Fetches s w i → readsHiLo i = true → step s = .next u →
    Fetches u w' j → u.params.hiloRule = .fault → writesHiLo j = true → step u = .fault .hiLoHazard) ∧
  (∀ (s u v : State) (w w' w'' : Word) (i j k : Instr), Fetches s w i → readsHiLo i = true → step s = .next u →
    Fetches u w' j → (∀ c, ¬ Raises u j c) → step u = .next v → Fetches v w'' k → v.params.hiloRule = .fault →
    v.loadHazard k = false → writesHiLo k = true → step v = .fault .hiLoHazard) ∧
  (∀ (s u v x : State) (w w' w'' : Word) (i j k : Instr), Fetches s w i → step s = .next u → Fetches u w' j →
    readsHiLo j = false → step u = .next v → Fetches v w'' k → readsHiLo k = false → step v = .next x →
    step x ≠ .fault .hiLoHazard) ∧
  (∀ s : State, s.params.hiloRule = .ignore → step s ≠ .fault .hiLoHazard)

/-! ### Whole runs -/

/-- R42's closing claim (the spec's decision D22, log 17): one memory for instructions and data, or an instruction
memory beside a data memory that need not hold the program, give the same runs, step for step, from every state. -/
def Obligations.OneMemoryOrTwo : Prop :=
  ∀ (k : Nat) (s s' : State) (program : Memory), SameButText s s' → HoldsText program s →
    EndAlike (Sys2Proof.core.run k s) (splitRun program k s')
end

