-- ==== Sys2Proof/Laws/Decode.lean ====
section
/-! SUPPORT. The decoder and encoder in plain arithmetic: the value of an encoded word, the fields read back from it, and
what a field test says of a word. -/

namespace Sys2Proof

/-- Concatenation as a sum (R8). -/
theorem toNat_append_eq {n m : Nat} (x : BitVec n) (y : BitVec m) :
    (x ++ y).toNat = x.toNat * 2 ^ m + y.toNat := by
  rw [BitVec.toNat_append, ← Nat.shiftLeft_add_eq_or_of_lt y.isLt, Nat.shiftLeft_eq]

/-! ### The value of an encoded word -/

theorem toNat_encodeR (rs rt rd : Reg) (sh : Shamt) (f : BitVec 6) :
    (encodeR rs rt rd sh f).toNat =
      rs.val * 2 ^ 21 + rt.val * 2 ^ 16 + rd.val * 2 ^ 11 + sh.val * 2 ^ 6 + f.toNat := by
  refine (toNat_append_eq (0#6 ++ fieldBits rs ++ fieldBits rt ++ fieldBits rd ++ fieldBits sh) f).trans ?_
  simp only [toNat_append_eq, fieldBits, BitVec.toNat_ofFin, BitVec.toNat_ofNat]
  omega

theorem toNat_encodeI (op : BitVec 6) (rs rt : Reg) (imm : Imm) :
    (encodeI op rs rt imm).toNat = op.toNat * 2 ^ 26 + rs.val * 2 ^ 21 + rt.val * 2 ^ 16 + imm.toNat := by
  refine (toNat_append_eq (op ++ fieldBits rs ++ fieldBits rt) imm).trans ?_
  simp only [toNat_append_eq, fieldBits, BitVec.toNat_ofFin]
  omega

theorem toNat_encodeJ (op : BitVec 6) (target : Target) :
    (encodeJ op target).toNat = op.toNat * 2 ^ 26 + target.toNat :=
  toNat_append_eq op target

/-! ### The value of a field -/

theorem opField_toNat (w : Word) : (opField w).toNat = w.toNat / 2 ^ 26 := by
  have := w.isLt
  simp [opField, BitVec.extractLsb'_toNat, Nat.shiftRight_eq_div_pow]
  omega

theorem functField_toNat (w : Word) : (functField w).toNat = w.toNat % 2 ^ 6 := by
  simp [functField, BitVec.extractLsb'_toNat]

theorem rsField_val (w : Word) : (rsField w).val = w.toNat / 2 ^ 21 % 32 := by
  simp [rsField, Nat.shiftRight_eq_div_pow]

theorem rtField_val (w : Word) : (rtField w).val = w.toNat / 2 ^ 16 % 32 := by
  simp [rtField, Nat.shiftRight_eq_div_pow]

theorem rdField_val (w : Word) : (rdField w).val = w.toNat / 2 ^ 11 % 32 := by
  simp [rdField, Nat.shiftRight_eq_div_pow]

theorem shamtField_val (w : Word) : (shamtField w).val = w.toNat / 2 ^ 6 % 32 := by
  simp [shamtField, Nat.shiftRight_eq_div_pow]

theorem immField_toNat (w : Word) : (immField w).toNat = w.toNat % 2 ^ 16 := by
  simp [immField, BitVec.extractLsb'_toNat]

theorem targetField_toNat (w : Word) : (targetField w).toNat = w.toNat % 2 ^ 26 := by
  simp [targetField, BitVec.extractLsb'_toNat]

/-! ### The fields of an encoded word -/

section R
variable (rs rt rd : Reg) (sh : Shamt) (f : BitVec 6)

@[simp] theorem opField_encodeR : opField (encodeR rs rt rd sh f) = 0 := by
  apply BitVec.eq_of_toNat_eq
  rw [opField_toNat, toNat_encodeR]
  have := f.isLt
  simp
  omega

@[simp] theorem functField_encodeR : functField (encodeR rs rt rd sh f) = f := by
  apply BitVec.eq_of_toNat_eq
  rw [functField_toNat, toNat_encodeR]
  have := f.isLt
  omega

@[simp] theorem rsField_encodeR : rsField (encodeR rs rt rd sh f) = rs := by
  apply Fin.ext
  rw [rsField_val, toNat_encodeR]
  have := f.isLt
  omega

@[simp] theorem rtField_encodeR : rtField (encodeR rs rt rd sh f) = rt := by
  apply Fin.ext
  rw [rtField_val, toNat_encodeR]
  have := f.isLt
  omega

@[simp] theorem rdField_encodeR : rdField (encodeR rs rt rd sh f) = rd := by
  apply Fin.ext
  rw [rdField_val, toNat_encodeR]
  have := f.isLt
  omega

@[simp] theorem shamtField_encodeR : shamtField (encodeR rs rt rd sh f) = sh := by
  apply Fin.ext
  rw [shamtField_val, toNat_encodeR]
  have := f.isLt
  omega

end R

section I
variable (op : BitVec 6) (rs rt : Reg) (imm : Imm)

@[simp] theorem opField_encodeI : opField (encodeI op rs rt imm) = op := by
  apply BitVec.eq_of_toNat_eq
  rw [opField_toNat, toNat_encodeI]
  have := imm.isLt
  omega

@[simp] theorem rsField_encodeI : rsField (encodeI op rs rt imm) = rs := by
  apply Fin.ext
  rw [rsField_val, toNat_encodeI]
  have := imm.isLt
  omega

@[simp] theorem rtField_encodeI : rtField (encodeI op rs rt imm) = rt := by
  apply Fin.ext
  rw [rtField_val, toNat_encodeI]
  have := imm.isLt
  omega

@[simp] theorem immField_encodeI : immField (encodeI op rs rt imm) = imm := by
  apply BitVec.eq_of_toNat_eq
  rw [immField_toNat, toNat_encodeI]
  have := imm.isLt
  omega

@[simp] theorem opField_encodeJ (target : Target) : opField (encodeJ op target) = op := by
  apply BitVec.eq_of_toNat_eq
  rw [opField_toNat, toNat_encodeJ]
  have := target.isLt
  omega

@[simp] theorem targetField_encodeJ (target : Target) : targetField (encodeJ op target) = target := by
  apply BitVec.eq_of_toNat_eq
  rw [targetField_toNat, toNat_encodeJ]
  have := target.isLt
  omega

end I

/-! ### A word is put together from its fields -/

theorem encodeR_fields (w : Word) (h : opField w = 0) :
    encodeR (rsField w) (rtField w) (rdField w) (shamtField w) (functField w) = w := by
  have h' := congrArg BitVec.toNat h
  have := w.isLt
  apply BitVec.eq_of_toNat_eq
  rw [opField_toNat] at h'
  rw [toNat_encodeR, rsField_val, rtField_val, rdField_val, shamtField_val, functField_toNat]
  simp at h'
  omega

theorem encodeI_fields (w : Word) : encodeI (opField w) (rsField w) (rtField w) (immField w) = w := by
  have := w.isLt
  apply BitVec.eq_of_toNat_eq
  rw [toNat_encodeI, opField_toNat, rsField_val, rtField_val, immField_toNat]
  omega

theorem encodeJ_fields (w : Word) : encodeJ (opField w) (targetField w) = w := by
  have := w.isLt
  apply BitVec.eq_of_toNat_eq
  rw [toNat_encodeJ, opField_toNat, targetField_toNat]
  omega

/-- Two words are equal if the six fields of the R-format are. -/
theorem word_ext {v w : Word} (h26 : v.extractLsb' 26 6 = w.extractLsb' 26 6)
    (h21 : v.extractLsb' 21 5 = w.extractLsb' 21 5) (h16 : v.extractLsb' 16 5 = w.extractLsb' 16 5)
    (h11 : v.extractLsb' 11 5 = w.extractLsb' 11 5) (h6 : v.extractLsb' 6 5 = w.extractLsb' 6 5)
    (h0 : v.extractLsb' 0 6 = w.extractLsb' 0 6) : v = w := by
  have sum : ∀ u : Word, u.toNat = (u.extractLsb' 26 6).toNat * 2 ^ 26 + (u.extractLsb' 21 5).toNat * 2 ^ 21 +
      (u.extractLsb' 16 5).toNat * 2 ^ 16 + (u.extractLsb' 11 5).toNat * 2 ^ 11 + (u.extractLsb' 6 5).toNat * 2 ^ 6 +
      (u.extractLsb' 0 6).toNat := fun u => by
    have := u.isLt
    simp [BitVec.extractLsb'_toNat, Nat.shiftRight_eq_div_pow]
    omega
  apply BitVec.eq_of_toNat_eq
  rw [sum v, sum w, h26, h21, h16, h11, h6, h0]

/-- An R-format word under a mask, field by field (R57). -/
theorem encodeR_and_mask {rs rt rd : Reg} {sh : Shamt} {f : BitVec 6} {mask pattern : Word}
    (h26 : 0#6 &&& mask.extractLsb' 26 6 = pattern.extractLsb' 26 6)
    (h21 : fieldBits rs &&& mask.extractLsb' 21 5 = pattern.extractLsb' 21 5)
    (h16 : fieldBits rt &&& mask.extractLsb' 16 5 = pattern.extractLsb' 16 5)
    (h11 : fieldBits rd &&& mask.extractLsb' 11 5 = pattern.extractLsb' 11 5)
    (h6 : fieldBits sh &&& mask.extractLsb' 6 5 = pattern.extractLsb' 6 5)
    (h0 : f &&& mask.extractLsb' 0 6 = pattern.extractLsb' 0 6) :
    encodeR rs rt rd sh f &&& mask = pattern := by
  apply word_ext <;> rw [BitVec.extractLsb'_and]
  · rwa [show (encodeR rs rt rd sh f).extractLsb' 26 6 = 0#6 from opField_encodeR ..]
  · rwa [show (encodeR rs rt rd sh f).extractLsb' 21 5 = fieldBits rs from congrArg fieldBits (rsField_encodeR ..)]
  · rwa [show (encodeR rs rt rd sh f).extractLsb' 16 5 = fieldBits rt from congrArg fieldBits (rtField_encodeR ..)]
  · rwa [show (encodeR rs rt rd sh f).extractLsb' 11 5 = fieldBits rd from congrArg fieldBits (rdField_encodeR ..)]
  · rwa [show (encodeR rs rt rd sh f).extractLsb' 6 5 = fieldBits sh from congrArg fieldBits (shamtField_encodeR ..)]
  · rwa [show (encodeR rs rt rd sh f).extractLsb' 0 6 = f from functField_encodeR ..]

/-- An I-format word under a mask of its upper 11 bits, field by field (R57). -/
theorem encodeI_and_mask {op : BitVec 6} {rs rt : Reg} {imm : Imm} {mask pattern : Word}
    (h26 : op &&& mask.extractLsb' 26 6 = pattern.extractLsb' 26 6)
    (h21 : fieldBits rs &&& mask.extractLsb' 21 5 = pattern.extractLsb' 21 5)
    (hm : mask.extractLsb' 0 21 = 0 := by decide) (hp : pattern.extractLsb' 0 21 = 0 := by decide) :
    encodeI op rs rt imm &&& mask = pattern := by
  have low : ∀ {u : Word} (k n : Nat), u.extractLsb' 0 21 = 0 → k + n ≤ 21 → u.extractLsb' k n = 0 := by
    intro u k n hu hk
    ext i hi
    have := congrArg (fun b => b.getLsbD (k + i)) hu
    simpa [BitVec.getLsbD_extractLsb', show k + i < 21 by omega] using this
  apply word_ext <;> rw [BitVec.extractLsb'_and]
  · rwa [show (encodeI op rs rt imm).extractLsb' 26 6 = op from opField_encodeI ..]
  · rwa [show (encodeI op rs rt imm).extractLsb' 21 5 = fieldBits rs from congrArg fieldBits (rsField_encodeI ..)]
  all_goals rw [low _ _ hm (by omega), low _ _ hp (by omega)]; exact BitVec.and_zero

/-- A J-format word under a mask of its opcode (R57). -/
theorem encodeJ_and_mask {op : BitVec 6} {target : Target} {mask pattern : Word}
    (h26 : op &&& mask.extractLsb' 26 6 = pattern.extractLsb' 26 6)
    (hm : mask.extractLsb' 0 26 = 0 := by decide) (hp : pattern.extractLsb' 0 26 = 0 := by decide) :
    encodeJ op target &&& mask = pattern := by
  have low : ∀ {u : Word} (k n : Nat), u.extractLsb' 0 26 = 0 → k + n ≤ 26 → u.extractLsb' k n = 0 := by
    intro u k n hu hk
    ext i hi
    have := congrArg (fun b => b.getLsbD (k + i)) hu
    simpa [BitVec.getLsbD_extractLsb', show k + i < 26 by omega] using this
  apply word_ext <;> rw [BitVec.extractLsb'_and]
  · rwa [show (encodeJ op target).extractLsb' 26 6 = op from opField_encodeJ ..]
  all_goals rw [low _ _ hm (by omega), low _ _ hp (by omega)]; exact BitVec.and_zero

/-- `whenZero` accepts exactly where its test holds. -/
@[simp] theorem whenZero_eq_ok {z : Bool} {i j : Instr} : whenZero z i = .ok j ↔ z = true ∧ i = j := by
  cases z <;> simp [whenZero]

/-- Every instruction's operands fit their fields: the bounds are in the types. -/
theorem Instr.wellFormed_eq_true (i : Instr) : i.wellFormed = true := by
  have h5 : ∀ n : Fin 32, (operand5 n).fits = true := fun n => decide_eq_true n.isLt
  have h16 : ∀ n : Imm, (operand16 n).fits = true := fun n => by simp [operand16, Operand.fits, n.isLt]
  have h26 : ∀ n : Target, (operand26 n).fits = true := fun n => by simp [operand26, Operand.fits, n.isLt]
  cases i <;> simp [Instr.wellFormed, Instr.operands, h5, h16, h26]

end Sys2Proof
end

