-- ==== Sys2Proof/Laws/Memory.lean ====
section
/-! SUPPORT. The laws of memory: a byte read after a byte write, big-endian words, and the canonical form every
operation keeps. -/

namespace Sys2Proof.Machine

/-! ### Lists of cells -/

theorem readCells_eraseCell (a b : Nat) (cs : List Host.Cell) :
    readCells (eraseCell a cs) b = if b = a then Config.unlistedByte else readCells cs b := by
  induction cs with
  | nil => simp [eraseCell, readCells]
  | cons c rest ih =>
    by_cases hc : c.1 = a <;> by_cases hb : b = a <;> simp_all [eraseCell, readCells, eq_comm]

theorem readCells_insertCell (a b : Nat) (v : Byte) (cs : List Host.Cell) (h : b ≠ a) :
    readCells (insertCell a v cs) b = readCells cs b := by
  induction cs with
  | nil => simp [insertCell, readCells, h.symm]
  | cons c rest ih =>
    by_cases hc : a < c.1 <;> simp [insertCell, readCells, hc, h.symm, ih]

/-- Where no cell is at `a`, an inserted cell is the one read there. -/
theorem readCells_insertCell_self (a : Nat) (v : Byte) (cs : List Host.Cell) (h : ∀ c ∈ cs, c.1 ≠ a) :
    readCells (insertCell a v cs) a = v := by
  induction cs with
  | nil => simp [insertCell, readCells]
  | cons c rest ih =>
    have hc : c.1 ≠ a := h c (by simp)
    by_cases hlt : a < c.1
    · simp [insertCell, readCells, hlt]
    · simp [insertCell, readCells, hlt, hc, ih fun d hd => h d (by simp [hd])]

theorem mem_eraseCell {a : Nat} {c : Host.Cell} {cs : List Host.Cell} (h : c ∈ eraseCell a cs) :
    c ∈ cs ∧ c.1 ≠ a := by
  induction cs with
  | nil => simp [eraseCell] at h
  | cons d rest ih =>
    by_cases hd : d.1 = a
    · simp only [eraseCell, if_pos hd] at h
      exact ⟨by simp [(ih h).1], (ih h).2⟩
    · simp only [eraseCell, if_neg hd, List.mem_cons] at h
      rcases h with rfl | h
      · exact ⟨by simp, hd⟩
      · exact ⟨by simp [(ih h).1], (ih h).2⟩

theorem mem_insertCell {a : Nat} {v : Byte} {c : Host.Cell} {cs : List Host.Cell} (h : c ∈ insertCell a v cs) :
    c = (a, v) ∨ c ∈ cs := by
  induction cs with
  | nil => simpa [insertCell] using h
  | cons d rest ih =>
    by_cases hd : a < d.1
    · simpa [insertCell, hd] using h
    · simp only [insertCell, if_neg hd, List.mem_cons] at h
      rcases h with rfl | h
      · simp
      · rcases ih h with h | h <;> simp [h]

/-! ### Bytes -/

/-- Read after write: the written address gives the written byte, every other address reads as before. -/
theorem Memory.read_write (m : Memory) (a : Nat) (v : Byte) (b : Nat) :
    (m.write a v).read b = if b = a then v else m.read b := by
  unfold Memory.write Memory.read
  by_cases hv : v = Config.unlistedByte
  · by_cases hb : b = a <;> simp [hv, readCells_eraseCell, hb]
  · by_cases hb : b = a
    · subst hb
      simp only [if_neg hv, if_true]
      exact readCells_insertCell_self _ _ _ fun c hc => (mem_eraseCell hc).2
    · simp [hv, hb, readCells_insertCell, readCells_eraseCell]

/-! ### Words -/

/-- Every byte after a word write: the four bytes of the word, all others as before. -/
theorem Memory.read_writeWord (m : Memory) (a : Nat) (v : Word) (b : Nat) :
    (m.writeWord a v).read b =
      if b = a then byteOfWord v 0
      else if b = a + 1 then byteOfWord v 1
      else if b = a + 2 then byteOfWord v 2
      else if b = a + 3 then byteOfWord v 3
      else m.read b := by
  simp only [Memory.writeWord, Memory.read_write]
  split_ifs <;> first | rfl | omega

/-- The four bytes of a word, put together, are the word (R33). -/
theorem wordOfBytes_byteOfWord (v : Word) :
    wordOfBytes (byteOfWord v 0) (byteOfWord v 1) (byteOfWord v 2) (byteOfWord v 3) = v := by
  apply BitVec.eq_of_toNat_eq
  have happ : ∀ {n m : Nat} (x : BitVec n) (y : BitVec m), (x ++ y).toNat = x.toNat * 2 ^ m + y.toNat := fun x y => by
    rw [BitVec.toNat_append, ← Nat.shiftLeft_add_eq_or_of_lt y.isLt, Nat.shiftLeft_eq]
  have hv := v.isLt
  refine (happ _ _).trans ?_
  simp only [happ, byteOfWord, BitVec.extractLsb'_toNat, Nat.shiftRight_eq_div_pow]
  omega

/-- A word read back after it was written. -/
theorem Memory.readWord_writeWord (m : Memory) (a : Nat) (v : Word) : (m.writeWord a v).readWord a = v := by
  simp [Memory.readWord, Memory.read_writeWord, wordOfBytes_byteOfWord]

/-- A word read depends only on its four bytes. -/
theorem Memory.readWord_congr {m m' : Memory} {a : Nat}
    (h : ∀ k, k < 4 → m'.read (a + k) = m.read (a + k)) : m'.readWord a = m.readWord a := by
  have h0 := h 0 (by omega)
  simp only [Nat.add_zero] at h0
  simp [Memory.readWord, h0, h 1 (by omega), h 2 (by omega), h 3 (by omega)]

/-! ### The canonical form -/

theorem cellsWf_cons (c : Host.Cell) (rest : List Host.Cell) :
    cellsWf (c :: rest) = true ↔
      c.1 < 2 ^ 32 ∧ c.2 ≠ Config.unlistedByte ∧ (∀ d ∈ rest, c.1 < d.1) ∧ cellsWf rest = true := by
  simp [cellsWf, and_assoc]

theorem cellsWf_eraseCell {cs : List Host.Cell} (h : cellsWf cs = true) (a : Nat) :
    cellsWf (eraseCell a cs) = true := by
  induction cs with
  | nil => rfl
  | cons c rest ih =>
    rw [cellsWf_cons] at h
    obtain ⟨h1, h2, h3, h4⟩ := h
    by_cases hc : c.1 = a
    · simpa [eraseCell, hc] using ih h4
    · simp only [eraseCell, if_neg hc]
      rw [cellsWf_cons]
      exact ⟨h1, h2, fun d hd => h3 d (mem_eraseCell hd).1, ih h4⟩

theorem cellsWf_insertCell {cs : List Host.Cell} {a : Nat} {v : Byte} (h : cellsWf cs = true)
    (ha : a < 2 ^ 32) (hv : v ≠ Config.unlistedByte) (hn : ∀ c ∈ cs, c.1 ≠ a) :
    cellsWf (insertCell a v cs) = true := by
  induction cs with
  | nil =>
    rw [insertCell, cellsWf_cons]
    exact ⟨ha, hv, by simp, rfl⟩
  | cons c rest ih =>
    have hcons := h
    rw [cellsWf_cons] at h
    obtain ⟨h1, h2, h3, h4⟩ := h
    by_cases hc : a < c.1
    · simp only [insertCell, if_pos hc]
      rw [cellsWf_cons]
      refine ⟨ha, hv, fun d hd => ?_, hcons⟩
      rcases List.mem_cons.mp hd with rfl | hd
      · exact hc
      · exact hc.trans (h3 d hd)
    · have hca : c.1 < a := by have := hn c (by simp); omega
      simp only [insertCell, if_neg hc]
      rw [cellsWf_cons]
      refine ⟨h1, h2, fun d hd => ?_, ih h4 fun d hd => hn d (by simp [hd])⟩
      rcases mem_insertCell hd with rfl | hd
      · exact hca
      · exact h3 d hd

@[simp] theorem Memory.wf_empty : Memory.empty.wf = true := rfl

/-- A byte write inside the address space keeps the canonical form. -/
theorem Memory.wf_write {m : Memory} (h : m.wf = true) {a : Nat} (ha : a < 2 ^ 32) (v : Byte) :
    (m.write a v).wf = true := by
  unfold Memory.wf Memory.write
  by_cases hv : v = Config.unlistedByte
  · simpa [hv] using cellsWf_eraseCell h a
  · simpa [hv] using cellsWf_insertCell (cellsWf_eraseCell h a) ha hv fun c hc => (mem_eraseCell hc).2

/-- A word write inside the address space keeps the canonical form. -/
theorem Memory.wf_writeWord {m : Memory} (h : m.wf = true) {a : Nat} (ha : a + 3 < 2 ^ 32) (v : Word) :
    (m.writeWord a v).wf = true :=
  Memory.wf_write (Memory.wf_write (Memory.wf_write (Memory.wf_write h (by omega) _) (by omega) _) (by omega) _) ha _

/-- Loading words inside the address space keeps the canonical form. -/
theorem wf_writeWords {m : Memory} (h : m.wf = true) {n : Nat} {ws : List Word} (hn : n + ws.length ≤ 2 ^ 30) :
    (writeWords m n ws).wf = true := by
  induction ws generalizing m n with
  | nil => exact h
  | cons w ws ih =>
    simp only [List.length_cons] at hn
    exact ih (Memory.wf_writeWord h (by omega) w) (by omega)

/-! ### Addresses -/

theorem wordAddress_toNat (a : Word) : (wordAddress a).toNat = a.toNat / 4 * 4 := by
  unfold wordAddress
  refine (BitVec.toNat_append _ _).trans ?_
  have := a.isLt
  simp [BitVec.extractLsb'_toNat, Nat.shiftRight_eq_div_pow, Nat.shiftLeft_eq]
  omega

/-- The last byte of a word lies in the address space. -/
theorem wordAddress_lt (a : Word) : (wordAddress a).toNat + 3 < 2 ^ 32 := by
  rw [wordAddress_toNat]
  have := a.isLt
  omega

theorem low_bits_eq_zero (a : Word) : a.extractLsb' 0 2 = 0#2 ↔ a.toNat % 4 = 0 := by
  rw [← BitVec.toNat_inj]
  simp [BitVec.extractLsb'_toNat]

end Sys2Proof.Machine
end

