-- ==== Sys2Proof/Laws/State.lean ====
section
/-! SUPPORT. The projections of every update of the state, one lemma per field per update, so that no proof unfolds a
record update; and what reading a register gives after each update. -/

namespace Sys2Proof.Machine

variable (s : State)

/-! ### `State.launch`: the launch state (R231) -/

section
variable (p : Params) (w : BitVec 30) (regs : Vector Word 32) (hi lo : Word) (m : Memory)
@[simp] theorem State.launch_regs : (State.launch p w regs hi lo m).regs = regs := rfl
@[simp] theorem State.launch_hi : (State.launch p w regs hi lo m).hi = hi := rfl
@[simp] theorem State.launch_lo : (State.launch p w regs hi lo m).lo = lo := rfl
@[simp] theorem State.launch_pc : (State.launch p w regs hi lo m).pc = w ++ 0#2 := rfl
@[simp] theorem State.launch_npc : (State.launch p w regs hi lo m).npc = w ++ 0#2 + 4 := rfl
@[simp] theorem State.launch_ds : (State.launch p w regs hi lo m).ds = false := rfl
@[simp] theorem State.launch_ldreg : (State.launch p w regs hi lo m).ldreg = none := rfl
@[simp] theorem State.launch_hlguard : (State.launch p w regs hi lo m).hlguard = 0 := rfl
@[simp] theorem State.launch_trap : (State.launch p w regs hi lo m).trap = none := rfl
@[simp] theorem State.launch_mem : (State.launch p w regs hi lo m).mem = m := rfl
@[simp] theorem State.launch_params : (State.launch p w regs hi lo m).params = p := rfl
@[simp] theorem State.launch_draws : (State.launch p w regs hi lo m).draws = 0 := rfl
end

/-! ### `State.finish`: the end of an instruction (R15, R21) -/

@[simp] theorem State.finish_regs (n : Word) (d : Bool) (l : Option Reg) (g : Fin 3) : (s.finish n d l g).regs = s.regs := rfl
@[simp] theorem State.finish_hi (n : Word) (d : Bool) (l : Option Reg) (g : Fin 3) : (s.finish n d l g).hi = s.hi := rfl
@[simp] theorem State.finish_lo (n : Word) (d : Bool) (l : Option Reg) (g : Fin 3) : (s.finish n d l g).lo = s.lo := rfl
@[simp] theorem State.finish_pc (n : Word) (d : Bool) (l : Option Reg) (g : Fin 3) : (s.finish n d l g).pc = s.npc := rfl
@[simp] theorem State.finish_npc (n : Word) (d : Bool) (l : Option Reg) (g : Fin 3) : (s.finish n d l g).npc = n := rfl
@[simp] theorem State.finish_ds (n : Word) (d : Bool) (l : Option Reg) (g : Fin 3) : (s.finish n d l g).ds = d := rfl
@[simp] theorem State.finish_ldreg (n : Word) (d : Bool) (l : Option Reg) (g : Fin 3) : (s.finish n d l g).ldreg = l := rfl
@[simp] theorem State.finish_hlguard (n : Word) (d : Bool) (l : Option Reg) (g : Fin 3) : (s.finish n d l g).hlguard = g := rfl
@[simp] theorem State.finish_trap (n : Word) (d : Bool) (l : Option Reg) (g : Fin 3) : (s.finish n d l g).trap = s.trap := rfl
@[simp] theorem State.finish_mem (n : Word) (d : Bool) (l : Option Reg) (g : Fin 3) : (s.finish n d l g).mem = s.mem := rfl
@[simp] theorem State.finish_params (n : Word) (d : Bool) (l : Option Reg) (g : Fin 3) : (s.finish n d l g).params = s.params := rfl
@[simp] theorem State.finish_draws (n : Word) (d : Bool) (l : Option Reg) (g : Fin 3) : (s.finish n d l g).draws = s.draws := rfl

/-! ### `State.writeHiLo`: HI and LO (R13) -/

@[simp] theorem State.writeHiLo_regs (h l : Word) : (s.writeHiLo h l).regs = s.regs := rfl
@[simp] theorem State.writeHiLo_hi (h l : Word) : (s.writeHiLo h l).hi = h := rfl
@[simp] theorem State.writeHiLo_lo (h l : Word) : (s.writeHiLo h l).lo = l := rfl
@[simp] theorem State.writeHiLo_pc (h l : Word) : (s.writeHiLo h l).pc = s.pc := rfl
@[simp] theorem State.writeHiLo_npc (h l : Word) : (s.writeHiLo h l).npc = s.npc := rfl
@[simp] theorem State.writeHiLo_ds (h l : Word) : (s.writeHiLo h l).ds = s.ds := rfl
@[simp] theorem State.writeHiLo_ldreg (h l : Word) : (s.writeHiLo h l).ldreg = s.ldreg := rfl
@[simp] theorem State.writeHiLo_hlguard (h l : Word) : (s.writeHiLo h l).hlguard = s.hlguard := rfl
@[simp] theorem State.writeHiLo_trap (h l : Word) : (s.writeHiLo h l).trap = s.trap := rfl
@[simp] theorem State.writeHiLo_mem (h l : Word) : (s.writeHiLo h l).mem = s.mem := rfl
@[simp] theorem State.writeHiLo_params (h l : Word) : (s.writeHiLo h l).params = s.params := rfl
@[simp] theorem State.writeHiLo_draws (h l : Word) : (s.writeHiLo h l).draws = s.draws := rfl

/-! ### `State.useDraws`: the draws of a division (R108, R109) -/

@[simp] theorem State.useDraws_regs : (s.useDraws).regs = s.regs := rfl
@[simp] theorem State.useDraws_hi : (s.useDraws).hi = s.hi := rfl
@[simp] theorem State.useDraws_lo : (s.useDraws).lo = s.lo := rfl
@[simp] theorem State.useDraws_pc : (s.useDraws).pc = s.pc := rfl
@[simp] theorem State.useDraws_npc : (s.useDraws).npc = s.npc := rfl
@[simp] theorem State.useDraws_ds : (s.useDraws).ds = s.ds := rfl
@[simp] theorem State.useDraws_ldreg : (s.useDraws).ldreg = s.ldreg := rfl
@[simp] theorem State.useDraws_hlguard : (s.useDraws).hlguard = s.hlguard := rfl
@[simp] theorem State.useDraws_trap : (s.useDraws).trap = s.trap := rfl
@[simp] theorem State.useDraws_mem : (s.useDraws).mem = s.mem := rfl
@[simp] theorem State.useDraws_params : (s.useDraws).params = s.params := rfl
@[simp] theorem State.useDraws_draws : (s.useDraws).draws = s.draws + 2 := rfl

/-! ### `State.takeTrap`: trap entry (R205) -/

@[simp] theorem State.takeTrap_regs (c : Cause) : (s.takeTrap c).regs = s.regs := rfl
@[simp] theorem State.takeTrap_hi (c : Cause) : (s.takeTrap c).hi = s.hi := rfl
@[simp] theorem State.takeTrap_lo (c : Cause) : (s.takeTrap c).lo = s.lo := rfl
@[simp] theorem State.takeTrap_pc (c : Cause) : (s.takeTrap c).pc = s.params.excHandler := rfl
@[simp] theorem State.takeTrap_npc (c : Cause) : (s.takeTrap c).npc = s.params.excHandler + 4 := rfl
@[simp] theorem State.takeTrap_ds (c : Cause) : (s.takeTrap c).ds = false := rfl
@[simp] theorem State.takeTrap_ldreg (c : Cause) : (s.takeTrap c).ldreg = none := rfl
@[simp] theorem State.takeTrap_hlguard (c : Cause) : (s.takeTrap c).hlguard = 0 := rfl
@[simp] theorem State.takeTrap_trap (c : Cause) : (s.takeTrap c).trap = some ⟨c, s.pc, s.ds⟩ := rfl
@[simp] theorem State.takeTrap_mem (c : Cause) : (s.takeTrap c).mem = s.mem := rfl
@[simp] theorem State.takeTrap_params (c : Cause) : (s.takeTrap c).params = s.params := rfl
@[simp] theorem State.takeTrap_draws (c : Cause) : (s.takeTrap c).draws = s.draws := rfl

/-! ### `State.writeReg`: a general register (R11) -/

@[simp] theorem State.writeReg_hi (r : Reg) (v : Word) : (s.writeReg r v).hi = s.hi := by
  unfold State.writeReg; split <;> rfl
@[simp] theorem State.writeReg_lo (r : Reg) (v : Word) : (s.writeReg r v).lo = s.lo := by
  unfold State.writeReg; split <;> rfl
@[simp] theorem State.writeReg_pc (r : Reg) (v : Word) : (s.writeReg r v).pc = s.pc := by
  unfold State.writeReg; split <;> rfl
@[simp] theorem State.writeReg_npc (r : Reg) (v : Word) : (s.writeReg r v).npc = s.npc := by
  unfold State.writeReg; split <;> rfl
@[simp] theorem State.writeReg_ds (r : Reg) (v : Word) : (s.writeReg r v).ds = s.ds := by
  unfold State.writeReg; split <;> rfl
@[simp] theorem State.writeReg_ldreg (r : Reg) (v : Word) : (s.writeReg r v).ldreg = s.ldreg := by
  unfold State.writeReg; split <;> rfl
@[simp] theorem State.writeReg_hlguard (r : Reg) (v : Word) : (s.writeReg r v).hlguard = s.hlguard := by
  unfold State.writeReg; split <;> rfl
@[simp] theorem State.writeReg_trap (r : Reg) (v : Word) : (s.writeReg r v).trap = s.trap := by
  unfold State.writeReg; split <;> rfl
@[simp] theorem State.writeReg_mem (r : Reg) (v : Word) : (s.writeReg r v).mem = s.mem := by
  unfold State.writeReg; split <;> rfl
@[simp] theorem State.writeReg_params (r : Reg) (v : Word) : (s.writeReg r v).params = s.params := by
  unfold State.writeReg; split <;> rfl
@[simp] theorem State.writeReg_draws (r : Reg) (v : Word) : (s.writeReg r v).draws = s.draws := by
  unfold State.writeReg; split <;> rfl

/-! ### `State.loadWords`: loading a program (R231) -/

@[simp] theorem State.loadWords_regs (a : Word) (ws : List Word) : (s.loadWords a ws).regs = s.regs := rfl
@[simp] theorem State.loadWords_hi (a : Word) (ws : List Word) : (s.loadWords a ws).hi = s.hi := rfl
@[simp] theorem State.loadWords_lo (a : Word) (ws : List Word) : (s.loadWords a ws).lo = s.lo := rfl
@[simp] theorem State.loadWords_pc (a : Word) (ws : List Word) : (s.loadWords a ws).pc = s.pc := rfl
@[simp] theorem State.loadWords_npc (a : Word) (ws : List Word) : (s.loadWords a ws).npc = s.npc := rfl
@[simp] theorem State.loadWords_ds (a : Word) (ws : List Word) : (s.loadWords a ws).ds = s.ds := rfl
@[simp] theorem State.loadWords_ldreg (a : Word) (ws : List Word) : (s.loadWords a ws).ldreg = s.ldreg := rfl
@[simp] theorem State.loadWords_hlguard (a : Word) (ws : List Word) : (s.loadWords a ws).hlguard = s.hlguard := rfl
@[simp] theorem State.loadWords_trap (a : Word) (ws : List Word) : (s.loadWords a ws).trap = s.trap := rfl
@[simp] theorem State.loadWords_mem (a : Word) (ws : List Word) : (s.loadWords a ws).mem = writeWords s.mem (a.toNat / 4) ws := rfl
@[simp] theorem State.loadWords_params (a : Word) (ws : List Word) : (s.loadWords a ws).params = { s.params with
      memDomain := ⟨a.toNat / 4, ws.length⟩ :: s.params.memDomain
      textRegion := ⟨a.toNat / 4, ws.length⟩ :: s.params.textRegion } := rfl
@[simp] theorem State.loadWords_draws (a : Word) (ws : List Word) : (s.loadWords a ws).draws = s.draws := rfl

/-! ### The ends of an instruction are `State.finish` -/

@[simp] theorem State.sequential_eq :
    s.sequential = s.finish (s.npc + 4) false none (guardAfter s.hlguard) := rfl
@[simp] theorem State.afterLoad_eq (rt : Reg) :
    s.afterLoad rt = s.finish (s.npc + 4) false (some rt) (guardAfter s.hlguard) := rfl
@[simp] theorem State.afterMove_eq : s.afterMove = s.finish (s.npc + 4) false none 2 := rfl
@[simp] theorem State.transfer_eq (t : Word) : s.transfer t = s.finish t true none (guardAfter s.hlguard) := rfl
@[simp] theorem State.branch_eq (c : Bool) (t : Word) :
    s.branch c t = s.finish (if c then t else s.npc + 4) true none (guardAfter s.hlguard) := rfl
@[simp] theorem guardAfter_val (g : Fin 3) : (guardAfter g).val = g.val - 1 := rfl

/-! ### What reading a register gives after an update -/

@[simp] theorem State.hardwired_finish (n : Word) (d : Bool) (l : Option Reg) (g : Fin 3) (r : Reg) :
    (s.finish n d l g).hardwired r = s.hardwired r := rfl
@[simp] theorem State.hardwired_writeReg (r : Reg) (v : Word) (q : Reg) :
    (s.writeReg r v).hardwired q = s.hardwired q := by
  simp [State.hardwired]
@[simp] theorem State.readReg_finish (n : Word) (d : Bool) (l : Option Reg) (g : Fin 3) (r : Reg) :
    (s.finish n d l g).readReg r = s.readReg r := rfl
@[simp] theorem State.readReg_writeHiLo (h l : Word) (r : Reg) : (s.writeHiLo h l).readReg r = s.readReg r := rfl
@[simp] theorem State.readReg_useDraws (r : Reg) : s.useDraws.readReg r = s.readReg r := rfl
@[simp] theorem State.readReg_takeTrap (c : Cause) (r : Reg) : (s.takeTrap c).readReg r = s.readReg r := rfl
@[simp] theorem State.readReg_setMem (m : Memory) (r : Reg) :
    State.readReg { s with mem := m } r = s.readReg r := rfl

/-- A hardwired register reads as zero (R11). -/
theorem State.readReg_of_hardwired {s : State} {r : Reg} (h : s.hardwired r = true) : s.readReg r = 0 := by
  simp [State.readReg, h]

/-- Reading after a write (R8, R11): the written register gives the value, or zero if it is hardwired; every other
register reads as before. -/
theorem State.readReg_writeReg (r : Reg) (v : Word) (q : Reg) :
    (s.writeReg r v).readReg q = if q = r then (if s.hardwired r then 0 else v) else s.readReg q := by
  unfold State.writeReg
  by_cases hr : s.hardwired r
  · by_cases hq : q = r
    · subst hq; simp [hr, State.readReg]
    · simp [hr, hq]
  · have hw (q : Reg) : State.hardwired { s with regs := s.regs.set r.val v r.isLt } q = s.hardwired q := rfl
    by_cases hq : q = r
    · subst hq; simp [hr, State.readReg, hw, Vector.get]
    · have : r.val ≠ q.val := fun h => hq (Fin.ext h.symm)
      simp [hr, hq, State.readReg, hw, Vector.get, this]

end Sys2Proof.Machine
end

