-- ==== Sys2Proof/Laws/Ops.lean ====
section
/-! SUPPORT. One lemma per shared operation that says everything it can answer: the checks of a data access and of the
fetch, loads, stores, and the hazard checks. -/

namespace Sys2Proof.Machine

variable {s : State} {p : Params} {a : Word}

/-! ### The address checks -/

/-- A data access is allowed exactly in `MEM_DOMAIN` outside `TEXT_REGION` (R35 to R38). -/
theorem dataFault_eq_none : dataFault p a = none ↔ inDomain p a = true ∧ inText p a = false := by
  unfold dataFault
  cases inDomain p a <;> cases inText p a <;> simp

theorem dataFault_eq_unmapped : dataFault p a = some .unmappedAccess ↔ inDomain p a = false := by
  unfold dataFault
  cases inDomain p a <;> cases inText p a <;> simp

theorem dataFault_eq_text : dataFault p a = some .textAccess ↔ inDomain p a = true ∧ inText p a = true := by
  unfold dataFault
  cases inDomain p a <;> cases inText p a <;> simp

/-- `TEXT_REGION` is a subset of `MEM_DOMAIN` (R5). -/
theorem inDomain_of_inText (h : inText p a = true) : inDomain p a = true := by
  simp only [inText, Bool.and_eq_true] at h
  exact h.1

/-- A fetch is allowed exactly at a multiple of 4 in `TEXT_REGION` (R15). -/
theorem fetchFault_eq_none : fetchFault p a = none ↔ a.toNat % 4 = 0 ∧ inText p a = true := by
  rw [← low_bits_eq_zero]
  unfold fetchFault
  by_cases h : a.extractLsb' 0 2 = 0#2
  · cases ht : inText p a
    · cases inDomain p a <;> simp [h]
    · simp [h, inDomain_of_inText ht]
  · simp [h]

/-- Bytes of one word are checked alike: the map is a map of words. -/
theorem inRange_congr (r : WordRange) {b : Word} (h : a.toNat / 4 = b.toNat / 4) : inRange r a = inRange r b := by
  simp [inRange, h]

theorem inDomain_congr {b : Word} (h : a.toNat / 4 = b.toNat / 4) : inDomain p a = inDomain p b := by
  simp only [inDomain, inRange_congr _ h]

theorem inText_congr {b : Word} (h : a.toNat / 4 = b.toNat / 4) : inText p a = inText p b := by
  simp only [inText, inDomain_congr h, inRange_congr _ h]

/-! ### Loads, stores and fetch -/

theorem State.loadByte_eq_ok {b : Byte} :
    s.loadByte a = .ok b ↔ dataFault s.params a = none ∧ b = s.mem.read a.toNat := by
  unfold State.loadByte
  cases dataFault s.params a <;> simp [eq_comm]

theorem State.loadWord_eq_ok {v : Word} :
    s.loadWord a = .ok v ↔ dataFault s.params a = none ∧ v = s.mem.readWord (wordAddress a).toNat := by
  unfold State.loadWord
  cases dataFault s.params a <;> simp [eq_comm]

theorem State.storeByte_eq_ok {b : Byte} {t : State} :
    s.storeByte a b = .ok t ↔ dataFault s.params a = none ∧ t = { s with mem := s.mem.write a.toNat b } := by
  unfold State.storeByte
  cases dataFault s.params a <;> simp [eq_comm]

theorem State.storeWord_eq_ok {v : Word} {t : State} :
    s.storeWord a v = .ok t ↔
      dataFault s.params a = none ∧ t = { s with mem := s.mem.writeWord (wordAddress a).toNat v } := by
  unfold State.storeWord
  cases dataFault s.params a <;> simp [eq_comm]

theorem State.fetch_eq_ok {w : Word} :
    s.fetch = .ok w ↔ fetchFault s.params s.pc = none ∧ w = s.mem.readWord s.pc.toNat := by
  unfold State.fetch
  cases fetchFault s.params s.pc <;> simp [eq_comm]

/-! ### Hazards -/

/-- No hazard stops the instruction exactly when none of the three applies (R214). -/
theorem State.hazard_eq_none {i : Instr} :
    s.hazard i = none ↔ s.delaySlotHazard i = false ∧ s.loadHazard i = false ∧ s.guardHazard i = false := by
  unfold State.hazard
  cases s.delaySlotHazard i <;> cases s.loadHazard i <;> cases s.guardHazard i <;> simp

end Sys2Proof.Machine
end

