-- ==== Sys2Proof/Laws/Exec.lean ====
section
/-! SUPPORT. What an instruction can do, said once: whichever instruction runs, its next state is trap entry, or one of a
few bodies followed by one of four ends. Invariants and whole-machine rules are derived from this. -/

namespace Sys2Proof.Machine

/-- What an instruction can write before it ends: nothing, one general register, HI and LO (with or without using
draws), one byte of data memory, or one word of data memory. -/
inductive Body (s : State) : State → Prop where
  | nothing : Body s s
  | reg (r : Reg) (v : Word) : Body s (s.writeReg r v)
  | hiLo (h l : Word) : Body s (s.writeHiLo h l)
  | draws : Body s s.writeDraws
  | byte (a : Word) (b : Byte) (h : dataFault s.params a = none) : Body s { s with mem := s.mem.write a.toNat b }
  | word (a : Word) (v : Word) (h : dataFault s.params a = none) :
    Body s { s with mem := s.mem.writeWord (wordAddress a).toNat v }

/-- How an instruction can end (R15, R21): in sequence, after a load, after MFHI or MFLO, or before a delay slot. -/
inductive Ending (s : State) : Word → Bool → Option Reg → Fin 3 → Prop where
  | sequential : Ending s (s.npc + 4) false none (guardAfter s.hlguard)
  | load (rt : Reg) : Ending s (s.npc + 4) false (some rt) (guardAfter s.hlguard)
  | move : Ending s (s.npc + 4) false none 2
  | transfer (t : Word) : Ending s t true none (guardAfter s.hlguard)

/-- A body followed by an end. -/
def Completes (s t : State) : Prop := ∃ u n d l g, Body s u ∧ Ending s n d l g ∧ t = u.finish n d l g

namespace Completes

variable {s : State}

theorem reg (r : Reg) (v : Word) : Completes s (s.writeReg r v).sequential :=
  ⟨_, _, _, _, _, .reg r v, .sequential, by simp⟩

theorem regLoad (r : Reg) (v : Word) : Completes s ((s.writeReg r v).afterLoad r) :=
  ⟨_, _, _, _, _, .reg r v, .load r, by simp⟩

theorem regMove (r : Reg) (v : Word) : Completes s (s.writeReg r v).afterMove :=
  ⟨_, _, _, _, _, .reg r v, .move, by simp⟩

theorem regTransfer (r : Reg) (v t : Word) : Completes s ((s.writeReg r v).transfer t) :=
  ⟨_, _, _, _, _, .reg r v, .transfer t, by simp⟩

theorem transfer (t : Word) : Completes s (s.transfer t) := ⟨_, _, _, _, _, .nothing, .transfer t, by simp⟩

theorem branch (c : Bool) (t : Word) : Completes s (s.branch c t) := ⟨_, _, _, _, _, .nothing, .transfer _, rfl⟩

theorem hiLo (h l : Word) : Completes s (s.writeHiLo h l).sequential := ⟨_, _, _, _, _, .hiLo h l, .sequential, by simp⟩

theorem draws : Completes s s.writeDraws.sequential :=
  ⟨_, _, _, _, _, .draws, .sequential, by simp [State.writeDraws]⟩

theorem byte {a : Word} {b : Byte} (h : dataFault s.params a = none) :
    Completes s (State.sequential { s with mem := s.mem.write a.toNat b }) :=
  ⟨_, _, _, _, _, .byte a b h, .sequential, rfl⟩

theorem word {a : Word} {v : Word} (h : dataFault s.params a = none) :
    Completes s (State.sequential { s with mem := s.mem.writeWord (wordAddress a).toNat v }) :=
  ⟨_, _, _, _, _, .word a v h, .sequential, rfl⟩

end Completes

variable {s t : State} {i : Instr}

theorem trappingResult_cases {dest : Reg} {wide : BitVec 33} (h : s.trappingResult dest wide = .next t) :
    (overflows wide = true ∧ t = s.takeTrap .overflow) ∨
      (overflows wide = false ∧ t = (s.writeReg dest (wide.setWidth 32)).sequential) := by
  unfold State.trappingResult at h
  split at h <;> cases h
  · exact .inl ⟨‹_›, rfl⟩
  · exact .inr ⟨Bool.eq_false_iff.mpr ‹_›, rfl⟩

/-- Everything an instruction can do when it answers a next state: take an exception, or complete. -/
theorem exec_cases (h : exec i s = .next t) : (∃ c, t = s.takeTrap c) ∨ Completes s t := by
  have trapping : ∀ {dest : Reg} {wide : BitVec 33}, s.trappingResult dest wide = .next t →
      (∃ c, t = s.takeTrap c) ∨ Completes s t := fun h => by
    obtain ⟨-, rfl⟩ | ⟨-, rfl⟩ := trappingResult_cases h
    · exact .inl ⟨_, rfl⟩
    · exact .inr (.reg _ _)
  cases i with
  | syscall => cases h; exact .inl ⟨_, rfl⟩
  | add | sub | addi => exact trapping h
  | mult | multu => cases h; exact .inr (.hiLo _ _)
  | div rs rt =>
    simp only [exec, execDiv] at h
    split_ifs at h <;> cases h
    · exact .inr .draws
    · exact .inr .draws
    · exact .inr (.hiLo _ _)
  | divu rs rt =>
    simp only [exec, execDivu] at h
    split_ifs at h <;> cases h
    · exact .inr .draws
    · exact .inr (.hiLo _ _)
  | jr | j => cases h; exact .inr (.transfer _)
  | jal | jalr => cases h; exact .inr (.regTransfer _ _ _)
  | beq | bne => cases h; exact .inr (.branch _ _)
  | mfhi | mflo => cases h; exact .inr (.regMove _ _)
  | lb rt offset base =>
    simp only [exec, execLb] at h
    split at h <;> cases h
    exact .inr (.regLoad _ _)
  | lw rt offset base =>
    simp only [exec, execLw] at h
    split at h <;> cases h
    exact .inr (.regLoad _ _)
  | sb rt offset base =>
    simp only [exec, execSb] at h
    split at h <;> cases h
    obtain ⟨hf, rfl⟩ := State.storeByte_eq_ok.mp ‹_›
    exact .inr (.byte hf)
  | sw rt offset base =>
    simp only [exec, execSw] at h
    split at h <;> cases h
    obtain ⟨hf, rfl⟩ := State.storeWord_eq_ok.mp ‹_›
    exact .inr (.word hf)
  | _ => cases h; exact .inr (.reg _ _)

/-- The bodies leave control state, trap record and parameters alone. -/
theorem Body.control {u : State} (h : Body s u) :
    u.pc = s.pc ∧ u.npc = s.npc ∧ u.trap = s.trap ∧ u.params = s.params := by
  cases h <;> simp [State.writeDraws]

end Sys2Proof.Machine
end

