-- ==== Sys2Proof/Laws/PerInstr.lean ====
section
/-! SUPPORT. Per-instruction facts: the word an instruction is encoded as matches the instruction's row of R57. -/

namespace Sys2Proof.Laws.MaskMatch

/-- The encoded word, under the mask of the instruction's row, is the row's match (R57). -/
def Statement (i : Instr) : Prop := encode i &&& i.row.mask = i.row.pattern

theorem sll (rd rt : Reg) (shamt : Shamt) : Statement (.sll rd rt shamt) := by
  simp only [Statement, encode, Instr.row]; exact encodeR_and_mask (by simp) (by simp [fieldBits]) (by simp [fieldBits]) (by simp [fieldBits]) (by simp [fieldBits]) (by decide)
theorem srl (rd rt : Reg) (shamt : Shamt) : Statement (.srl rd rt shamt) := by
  simp only [Statement, encode, Instr.row]; exact encodeR_and_mask (by simp) (by simp [fieldBits]) (by simp [fieldBits]) (by simp [fieldBits]) (by simp [fieldBits]) (by decide)
theorem sra (rd rt : Reg) (shamt : Shamt) : Statement (.sra rd rt shamt) := by
  simp only [Statement, encode, Instr.row]; exact encodeR_and_mask (by simp) (by simp [fieldBits]) (by simp [fieldBits]) (by simp [fieldBits]) (by simp [fieldBits]) (by decide)
theorem sllv (rd rt rs : Reg) : Statement (.sllv rd rt rs) := by
  simp only [Statement, encode, Instr.row]; exact encodeR_and_mask (by simp) (by simp [fieldBits]) (by simp [fieldBits]) (by simp [fieldBits]) (by simp [fieldBits]) (by decide)
theorem srlv (rd rt rs : Reg) : Statement (.srlv rd rt rs) := by
  simp only [Statement, encode, Instr.row]; exact encodeR_and_mask (by simp) (by simp [fieldBits]) (by simp [fieldBits]) (by simp [fieldBits]) (by simp [fieldBits]) (by decide)
theorem srav (rd rt rs : Reg) : Statement (.srav rd rt rs) := by
  simp only [Statement, encode, Instr.row]; exact encodeR_and_mask (by simp) (by simp [fieldBits]) (by simp [fieldBits]) (by simp [fieldBits]) (by simp [fieldBits]) (by decide)
theorem jr (rs : Reg) : Statement (.jr rs) := by
  simp only [Statement, encode, Instr.row]; exact encodeR_and_mask (by simp) (by simp [fieldBits]) (by simp [fieldBits]) (by simp [fieldBits]) (by simp [fieldBits]) (by decide)
theorem jalr (rd rs : Reg) : Statement (.jalr rd rs) := by
  simp only [Statement, encode, Instr.row]; exact encodeR_and_mask (by simp) (by simp [fieldBits]) (by simp [fieldBits]) (by simp [fieldBits]) (by simp [fieldBits]) (by decide)
theorem syscall : Statement .syscall := by
  simp only [Statement, encode, Instr.row]; exact encodeR_and_mask (by simp) (by simp [fieldBits]) (by simp [fieldBits]) (by simp [fieldBits]) (by simp [fieldBits]) (by decide)
theorem mfhi (rd : Reg) : Statement (.mfhi rd) := by
  simp only [Statement, encode, Instr.row]; exact encodeR_and_mask (by simp) (by simp [fieldBits]) (by simp [fieldBits]) (by simp [fieldBits]) (by simp [fieldBits]) (by decide)
theorem mflo (rd : Reg) : Statement (.mflo rd) := by
  simp only [Statement, encode, Instr.row]; exact encodeR_and_mask (by simp) (by simp [fieldBits]) (by simp [fieldBits]) (by simp [fieldBits]) (by simp [fieldBits]) (by decide)
theorem mult (rs rt : Reg) : Statement (.mult rs rt) := by
  simp only [Statement, encode, Instr.row]; exact encodeR_and_mask (by simp) (by simp [fieldBits]) (by simp [fieldBits]) (by simp [fieldBits]) (by simp [fieldBits]) (by decide)
theorem multu (rs rt : Reg) : Statement (.multu rs rt) := by
  simp only [Statement, encode, Instr.row]; exact encodeR_and_mask (by simp) (by simp [fieldBits]) (by simp [fieldBits]) (by simp [fieldBits]) (by simp [fieldBits]) (by decide)
theorem div (rs rt : Reg) : Statement (.div rs rt) := by
  simp only [Statement, encode, Instr.row]; exact encodeR_and_mask (by simp) (by simp [fieldBits]) (by simp [fieldBits]) (by simp [fieldBits]) (by simp [fieldBits]) (by decide)
theorem divu (rs rt : Reg) : Statement (.divu rs rt) := by
  simp only [Statement, encode, Instr.row]; exact encodeR_and_mask (by simp) (by simp [fieldBits]) (by simp [fieldBits]) (by simp [fieldBits]) (by simp [fieldBits]) (by decide)
theorem add (rd rs rt : Reg) : Statement (.add rd rs rt) := by
  simp only [Statement, encode, Instr.row]; exact encodeR_and_mask (by simp) (by simp [fieldBits]) (by simp [fieldBits]) (by simp [fieldBits]) (by simp [fieldBits]) (by decide)
theorem addu (rd rs rt : Reg) : Statement (.addu rd rs rt) := by
  simp only [Statement, encode, Instr.row]; exact encodeR_and_mask (by simp) (by simp [fieldBits]) (by simp [fieldBits]) (by simp [fieldBits]) (by simp [fieldBits]) (by decide)
theorem sub (rd rs rt : Reg) : Statement (.sub rd rs rt) := by
  simp only [Statement, encode, Instr.row]; exact encodeR_and_mask (by simp) (by simp [fieldBits]) (by simp [fieldBits]) (by simp [fieldBits]) (by simp [fieldBits]) (by decide)
theorem subu (rd rs rt : Reg) : Statement (.subu rd rs rt) := by
  simp only [Statement, encode, Instr.row]; exact encodeR_and_mask (by simp) (by simp [fieldBits]) (by simp [fieldBits]) (by simp [fieldBits]) (by simp [fieldBits]) (by decide)
theorem and (rd rs rt : Reg) : Statement (.and rd rs rt) := by
  simp only [Statement, encode, Instr.row]; exact encodeR_and_mask (by simp) (by simp [fieldBits]) (by simp [fieldBits]) (by simp [fieldBits]) (by simp [fieldBits]) (by decide)
theorem or (rd rs rt : Reg) : Statement (.or rd rs rt) := by
  simp only [Statement, encode, Instr.row]; exact encodeR_and_mask (by simp) (by simp [fieldBits]) (by simp [fieldBits]) (by simp [fieldBits]) (by simp [fieldBits]) (by decide)
theorem xor (rd rs rt : Reg) : Statement (.xor rd rs rt) := by
  simp only [Statement, encode, Instr.row]; exact encodeR_and_mask (by simp) (by simp [fieldBits]) (by simp [fieldBits]) (by simp [fieldBits]) (by simp [fieldBits]) (by decide)
theorem nor (rd rs rt : Reg) : Statement (.nor rd rs rt) := by
  simp only [Statement, encode, Instr.row]; exact encodeR_and_mask (by simp) (by simp [fieldBits]) (by simp [fieldBits]) (by simp [fieldBits]) (by simp [fieldBits]) (by decide)
theorem slt (rd rs rt : Reg) : Statement (.slt rd rs rt) := by
  simp only [Statement, encode, Instr.row]; exact encodeR_and_mask (by simp) (by simp [fieldBits]) (by simp [fieldBits]) (by simp [fieldBits]) (by simp [fieldBits]) (by decide)
theorem sltu (rd rs rt : Reg) : Statement (.sltu rd rs rt) := by
  simp only [Statement, encode, Instr.row]; exact encodeR_and_mask (by simp) (by simp [fieldBits]) (by simp [fieldBits]) (by simp [fieldBits]) (by simp [fieldBits]) (by decide)
theorem j (target : Target) : Statement (.j target) := by
  simp only [Statement, encode, Instr.row]; exact encodeJ_and_mask (by decide)
theorem jal (target : Target) : Statement (.jal target) := by
  simp only [Statement, encode, Instr.row]; exact encodeJ_and_mask (by decide)
theorem beq (rt rs : Reg) (offset : Imm) : Statement (.beq rt rs offset) := by
  simp only [Statement, encode, Instr.row]; exact encodeI_and_mask (by decide) (by simp [fieldBits])
theorem bne (rt rs : Reg) (offset : Imm) : Statement (.bne rt rs offset) := by
  simp only [Statement, encode, Instr.row]; exact encodeI_and_mask (by decide) (by simp [fieldBits])
theorem addi (rt rs : Reg) (imm : Imm) : Statement (.addi rt rs imm) := by
  simp only [Statement, encode, Instr.row]; exact encodeI_and_mask (by decide) (by simp [fieldBits])
theorem addiu (rt rs : Reg) (imm : Imm) : Statement (.addiu rt rs imm) := by
  simp only [Statement, encode, Instr.row]; exact encodeI_and_mask (by decide) (by simp [fieldBits])
theorem slti (rt rs : Reg) (imm : Imm) : Statement (.slti rt rs imm) := by
  simp only [Statement, encode, Instr.row]; exact encodeI_and_mask (by decide) (by simp [fieldBits])
theorem sltiu (rt rs : Reg) (imm : Imm) : Statement (.sltiu rt rs imm) := by
  simp only [Statement, encode, Instr.row]; exact encodeI_and_mask (by decide) (by simp [fieldBits])
theorem andi (rt rs : Reg) (imm : Imm) : Statement (.andi rt rs imm) := by
  simp only [Statement, encode, Instr.row]; exact encodeI_and_mask (by decide) (by simp [fieldBits])
theorem ori (rt rs : Reg) (imm : Imm) : Statement (.ori rt rs imm) := by
  simp only [Statement, encode, Instr.row]; exact encodeI_and_mask (by decide) (by simp [fieldBits])
theorem xori (rt rs : Reg) (imm : Imm) : Statement (.xori rt rs imm) := by
  simp only [Statement, encode, Instr.row]; exact encodeI_and_mask (by decide) (by simp [fieldBits])
theorem lui (rt : Reg) (imm : Imm) : Statement (.lui rt imm) := by
  simp only [Statement, encode, Instr.row]; exact encodeI_and_mask (by decide) (by simp [fieldBits])
theorem lb (rt : Reg) (offset : Imm) (base : Reg) : Statement (.lb rt offset base) := by
  simp only [Statement, encode, Instr.row]; exact encodeI_and_mask (by decide) (by simp [fieldBits])
theorem lw (rt : Reg) (offset : Imm) (base : Reg) : Statement (.lw rt offset base) := by
  simp only [Statement, encode, Instr.row]; exact encodeI_and_mask (by decide) (by simp [fieldBits])
theorem sb (rt : Reg) (offset : Imm) (base : Reg) : Statement (.sb rt offset base) := by
  simp only [Statement, encode, Instr.row]; exact encodeI_and_mask (by decide) (by simp [fieldBits])
theorem sw (rt : Reg) (offset : Imm) (base : Reg) : Statement (.sw rt offset base) := by
  simp only [Statement, encode, Instr.row]; exact encodeI_and_mask (by decide) (by simp [fieldBits])

end Sys2Proof.Laws.MaskMatch
end

