-- ==== Sys2Proof/Laws/Step.lean ====
section
/-! SUPPORT. What a step can do, said once, for each of its three outcomes. -/

namespace Sys2Proof.Machine

variable {s t : State}

/-- A step that answers a next state has fetched and decoded an instruction that no hazard stops, and is that
instruction's meaning. -/
theorem step_eq_next (h : step s = .next t) :
    ∃ w i, s.runEnded = false ∧ s.fetch = .ok w ∧ decode w = .ok i ∧ s.hazard i = none ∧ exec i s = .next t := by
  unfold step at h
  split at h
  · cases h
  · split at h
    · cases h
    · split at h
      · cases h
      · split at h
        · cases h
        · exact ⟨_, _, Bool.eq_false_iff.mpr ‹_›, ‹_›, ‹_›, ‹_›, h⟩

/-- A step that answers a fault: the fetch's, a reserved word's, a hazard's, or the instruction's own. -/
theorem step_eq_fault {f : Fault} (h : step s = .fault f) :
    s.runEnded = false ∧
      (s.fetch = .error f ∨
        ∃ w, s.fetch = .ok w ∧
          ((f = .reservedInstruction ∧ ∃ r, decode w = .error r) ∨
            ∃ i, decode w = .ok i ∧ (s.hazard i = some f ∨ s.hazard i = none ∧ exec i s = .fault f))) := by
  unfold step at h
  split at h
  · cases h
  · refine ⟨Bool.eq_false_iff.mpr ‹_›, ?_⟩
    split at h
    · cases h; exact .inl ‹_›
    · refine .inr ⟨_, ‹_›, ?_⟩
      split at h
      · cases h; exact .inl ⟨rfl, _, ‹_›⟩
      · refine .inr ⟨_, ‹_›, ?_⟩
        split at h
        · cases h; exact .inl ‹_›
        · exact .inr ⟨‹_›, h⟩

/-- No meaning refuses: every instruction of the table has one. -/
theorem exec_ne_refused {i : Instr} {r : Refusal} : exec i s ≠ .refused r := by
  intro h
  cases i <;> try cases h
  case add | addi | sub =>
    simp only [exec, execAdd, execAddi, execSub, State.trappingResult] at h
    split at h <;> cases h
  case div | divu =>
    simp only [exec, execDiv, execDivu] at h
    split_ifs at h
  case lb | lw | sb | sw =>
    simp only [exec, execLb, execLw, execSb, execSw] at h
    split at h <;> cases h

/-- The next state of a step is trap entry or a completed instruction. -/
theorem step_cases (h : step s = .next t) : (∃ c, t = s.takeTrap c) ∨ Completes s t := by
  obtain ⟨_, _, -, -, -, -, h⟩ := step_eq_next h
  exact exec_cases h

end Sys2Proof.Machine
end

