-- ==== Sys2Proof/Tests/Slice0.lean ====
section
/-! SUPPORT. Tests. Expected values are the spec's own: the words and results of 95_test_vectors.md and of the rules'
examples. The second half shows, for every statement with hypotheses, a state and operands that meet them. -/

namespace Sys2Proof.Tests

open Sys2Proof.Machine

/-! ### Well-formedness: each check refuses a number that does not fit -/

theorem test_register_number_too_large : Operand.fits ⟨32, 5⟩ = false := by decide
theorem test_immediate_too_large : Operand.fits ⟨2 ^ 16, 16⟩ = false := by decide
theorem test_target_too_large : Operand.fits ⟨2 ^ 26, 26⟩ = false := by decide

/-! ### Decoding (95_test_vectors.md section 2): the words, and the reserved neighbours by the name of their reason -/

theorem test_decode_shift :
    decode 0x00095100 = .ok (.sll 10 9 4) ∧ decode 0x00095102 = .ok (.srl 10 9 4) ∧
    decode 0x00095103 = .ok (.sra 10 9 4) ∧ decode 0x01095004 = .ok (.sllv 10 9 8) ∧
    decode 0x01095006 = .ok (.srlv 10 9 8) ∧ decode 0x01095007 = .ok (.srav 10 9 8) ∧
    decode 0x00295100 = .error .nonzeroField ∧ decode 0x01095044 = .error .nonzeroField := by decide

theorem test_decode_jump :
    decode 0x03E00008 = .ok (.jr 31) ∧ decode 0x0100F809 = .ok (.jalr 31 8) ∧ decode 0x080000C8 = .ok (.j 0xC8) ∧
    decode 0x0C0000C8 = .ok (.jal 0xC8) ∧ decode 0x03E00808 = .error .nonzeroField ∧
    decode 0x0101F809 = .error .nonzeroField := by decide

theorem test_decode_system_move :
    decode 0x0000000C = .ok .syscall ∧ decode 0x00001810 = .ok (.mfhi 3) ∧ decode 0x00001012 = .ok (.mflo 2) ∧
    decode 0x3C081234 = .ok (.lui 8 0x1234) ∧ decode 0x0000004C = .error .nonzeroField ∧
    decode 0x00201810 = .error .nonzeroField ∧ decode 0x00011012 = .error .nonzeroField ∧
    decode 0x3C281234 = .error .nonzeroField := by decide

theorem test_decode_multiply_divide :
    decode 0x00850018 = .ok (.mult 4 5) ∧ decode 0x01090019 = .ok (.multu 8 9) ∧ decode 0x0109001A = .ok (.div 8 9) ∧
    decode 0x0109001B = .ok (.divu 8 9) ∧ decode 0x00850818 = .error .nonzeroField ∧
    decode 0x0109005B = .error .nonzeroField := by decide

theorem test_decode_arithmetic :
    decode 0x01095020 = .ok (.add 10 8 9) ∧ decode 0x01095021 = .ok (.addu 10 8 9) ∧
    decode 0x01095022 = .ok (.sub 10 8 9) ∧ decode 0x01095023 = .ok (.subu 10 8 9) ∧
    decode 0x2109FFFD = .ok (.addi 9 8 0xFFFD) ∧ decode 0x2509FFFF = .ok (.addiu 9 8 0xFFFF) ∧
    decode 0x01095060 = .error .nonzeroField := by decide

theorem test_decode_logical :
    decode 0x01095024 = .ok (.and 10 8 9) ∧ decode 0x01095025 = .ok (.or 10 8 9) ∧
    decode 0x01095026 = .ok (.xor 10 8 9) ∧ decode 0x01095027 = .ok (.nor 10 8 9) ∧
    decode 0x3109FF00 = .ok (.andi 9 8 0xFF00) ∧ decode 0x3509FF00 = .ok (.ori 9 8 0xFF00) ∧
    decode 0x3909FFFF = .ok (.xori 9 8 0xFFFF) ∧ decode 0x01095067 = .error .nonzeroField := by decide

theorem test_decode_compare :
    decode 0x0109502A = .ok (.slt 10 8 9) ∧ decode 0x0109502B = .ok (.sltu 10 8 9) ∧
    decode 0x2909FFFD = .ok (.slti 9 8 0xFFFD) ∧ decode 0x2D09FFFF = .ok (.sltiu 9 8 0xFFFF) ∧
    decode 0x0109506A = .error .nonzeroField := by decide

theorem test_decode_branch :
    decode 0x11280003 = .ok (.beq 8 9 3) ∧ decode 0x1408FFFD = .ok (.bne 8 0 0xFFFD) := by decide

theorem test_decode_load_store :
    decode 0x812A0003 = .ok (.lb 10 3 9) ∧ decode 0x8D2C0002 = .ok (.lw 12 2 9) ∧ decode 0xA1280001 = .ok (.sb 8 1 9) ∧
    decode 0xAD280000 = .ok (.sw 8 0 9) := by decide

theorem test_decode_unused_opcodes :
    decode 0x04000000 = .error (.unusedOpcode 1) ∧ decode 0x1C000000 = .error (.unusedOpcode 7) ∧
    decode 0x40000000 = .error (.unusedOpcode 16) ∧ decode 0x84000000 = .error (.unusedOpcode 33) ∧
    decode 0x90000000 = .error (.unusedOpcode 36) ∧ decode 0xA4000000 = .error (.unusedOpcode 41) ∧
    decode 0xFC000000 = .error (.unusedOpcode 63) := by decide

theorem test_decode_unused_functions :
    decode 0x00000001 = .error (.unusedFunction 1) ∧ decode 0x00000005 = .error (.unusedFunction 5) ∧
    decode 0x0000000D = .error (.unusedFunction 13) ∧ decode 0x00000013 = .error (.unusedFunction 19) ∧
    decode 0x0000001C = .error (.unusedFunction 28) ∧ decode 0x00000028 = .error (.unusedFunction 40) ∧
    decode 0x0000003F = .error (.unusedFunction 63) := by decide

theorem test_decode_zero_word_and_bytes :
    decode 0 = .ok (.sll 0 0 0) ∧ decodeBytes [0x3C, 0x08, 0x12, 0x34, 0xFF] = .ok (.lui 8 0x1234, [0xFF]) ∧
    decodeBytes [0x3C, 0x08, 0x12] = .error .truncated ∧ decodeTableWord 32 0x3C081234 = some (.lui 8 0x1234) := by decide

/-! ### One step on a small state -/

/-- All registers 0, every word backed, no program. -/
def blank : State := { State.reset with regs := Vector.replicate 32 0#32, hi := 0, lo := 0 }

/-- `blank` with some registers written, the program counter at `pc` and the given words loaded there. -/
def start (pc : Word) (regs : List (Reg × Word)) (words : List Word) : State :=
  State.loadWords { regs.foldl (fun s p => s.writeReg p.1 p.2) blank with pc := pc, npc := pc + 4 } pc words

/-- `s` with a word of data at 0x1000. -/
def withData (v : Word) (s : State) : State := { s with mem := s.mem.writeWord 0x1000 v }

/-- The next state, or `blank`. -/
def after : Host.Outcome State Fault Refusal → State
  | .next t => t
  | .fault _ | .refused _ => blank

def goesOn : Host.Outcome State Fault Refusal → Bool
  | .next _ => true
  | .fault _ | .refused _ => false

def faultOf : Host.Outcome State Fault Refusal → Option Fault
  | .fault f => some f
  | .next _ | .refused _ => none

theorem eq_next {o : Host.Outcome State Fault Refusal} (h : goesOn o = true) : o = .next (after o) := by
  cases o <;> first | rfl | cases h

/-- The step of one word with these registers goes on and leaves this value in this register. -/
def result (w : Word) (regs : List (Reg × Word)) (r : Reg) (v : Word) : Bool :=
  goesOn (step (start 0x200 regs [w])) && (after (step (start 0x200 regs [w]))).readReg r == v

/-- The same for HI and LO. -/
def resultHiLo (w : Word) (regs : List (Reg × Word)) (hi lo : Word) : Bool :=
  goesOn (step (start 0x200 regs [w])) && (after (step (start 0x200 regs [w]))).hi == hi &&
    (after (step (start 0x200 regs [w]))).lo == lo

/-- The step of one word traps with overflow, the register unchanged. -/
def overflowsWith (w : Word) (regs : List (Reg × Word)) (r : Reg) : Bool :=
  (after (step (start 0x200 regs [w]))).trap == some ⟨.overflow, 0x200, false⟩ &&
    (after (step (start 0x200 regs [w]))).readReg r == (start 0x200 regs [w]).readReg r

/-- The step of one word at `pc` leaves this pair `pc`, `npc`. -/
def continues (w pc : Word) (regs : List (Reg × Word)) (pc' npc' : Word) : Bool :=
  (after (step (start pc regs [w]))).pc == pc' && (after (step (start pc regs [w]))).npc == npc'

theorem test_add : result 0x01095020 [(8, 5), (9, 0xFFFFFFFE)] 10 3 = true := by decide
theorem test_add_overflow : overflowsWith 0x01095020 [(8, 0x40000000), (9, 0x40000000)] 10 = true := by decide
theorem test_addi : result 0x21098000 [(8, 0x80008000)] 9 0x80000000 = true := by decide
theorem test_addi_overflow : overflowsWith 0x2109FFFF [(8, 0x80000000)] 9 = true := by decide
theorem test_addu : result 0x01095021 [(8, 0x7FFFFFFF), (9, 1)] 10 0x80000000 = true := by decide
theorem test_addiu : result 0x25098000 [(8, 0x10)] 9 0xFFFF8010 = true := by decide
theorem test_sub : result 0x01095022 [(8, 0xFFFFFFFF), (9, 0x80000000)] 10 0x7FFFFFFF = true := by decide
theorem test_sub_overflow : overflowsWith 0x01095022 [(8, 0), (9, 0x80000000)] 10 = true := by decide
theorem test_subu : result 0x01095023 [(8, 0), (9, 1)] 10 0xFFFFFFFF = true := by decide
theorem test_mult : resultHiLo 0x01090018 [(8, 0xFFFFFFF9), (9, 3)] 0xFFFFFFFF 0xFFFFFFEB = true := by decide
theorem test_mult_corner : resultHiLo 0x01090018 [(8, 0x80000000), (9, 0x80000000)] 0x40000000 0 = true := by decide
theorem test_multu : resultHiLo 0x01090019 [(8, 0xFFFFFFFF), (9, 0xFFFFFFFF)] 0xFFFFFFFE 1 = true := by decide
theorem test_div : resultHiLo 0x0109001A [(8, 0xFFFFFFF9), (9, 2)] 0xFFFFFFFF 0xFFFFFFFD = true := by decide
theorem test_div_negative_divisor : resultHiLo 0x0109001A [(8, 7), (9, 0xFFFFFFFE)] 1 0xFFFFFFFD = true := by decide
theorem test_divu : resultHiLo 0x0109001B [(8, 0xFFFFFFF9), (9, 2)] 1 0x7FFFFFFC = true := by decide
theorem test_and : result 0x01095024 [(8, 0xF0F0A5A5), (9, 0x0FF0FF00)] 10 0x00F0A500 = true := by decide
theorem test_andi : result 0x31098000 [(8, 0xF0F0A5A5)] 9 0x00008000 = true := by decide
theorem test_or : result 0x01095025 [(8, 0xF0F0A5A5), (9, 0x0FF0FF00)] 10 0xFFF0FFA5 = true := by decide
theorem test_ori : result 0x35098000 [(8, 0xF0F0A5A5)] 9 0xF0F0A5A5 = true := by decide
theorem test_xor : result 0x01095026 [(8, 0xF0F0A5A5), (9, 0x0FF0FF00)] 10 0xFF005AA5 = true := by decide
theorem test_xori : result 0x39098000 [(8, 0xF0F0A5A5)] 9 0xF0F025A5 = true := by decide
theorem test_nor : result 0x01095027 [(8, 0xF0F0A5A5), (9, 0x0FF0FF00)] 10 0x000F005A = true := by decide
theorem test_sll : result 0x000957C0 [(9, 0x80000001)] 10 0x80000000 = true := by decide
theorem test_srl : result 0x00095042 [(9, 0x80000001)] 10 0x40000000 = true := by decide
theorem test_sra : result 0x00095043 [(9, 0x80000001)] 10 0xC0000000 = true := by decide
theorem test_sllv : result 0x01097004 [(9, 2), (8, 0xFFFFFFF9)] 14 0x04000000 = true := by decide
theorem test_srlv : result 0x01095006 [(9, 0x80000000), (8, 36)] 10 0x08000000 = true := by decide
theorem test_srav : result 0x01095007 [(9, 0x80000000), (8, 36)] 10 0xF8000000 = true := by decide
theorem test_slt : result 0x0109502A [(8, 0xFFFFFFFF), (9, 1)] 10 1 = true := by decide
theorem test_sltu : result 0x0109502B [(8, 0xFFFFFFFF), (9, 1)] 10 0 = true := by decide
theorem test_slti : result 0x2909FFFD [(8, 0xFFFFFFF9)] 9 1 = true := by decide
theorem test_sltiu : result 0x2D09FFFF [(8, 0x00010000)] 9 1 = true := by decide
theorem test_lui : result 0x3C081234 [] 8 0x12340000 = true := by decide
theorem test_mfhi : (after (step { start 0x200 [] [0x00001810] with hi := 0xFFFFFFFF })).readReg 3 = 0xFFFFFFFF := by decide
theorem test_mflo : (after (step { start 0x200 [] [0x00001012] with lo := 0xFFFFFFEB })).readReg 2 = 0xFFFFFFEB := by decide
theorem test_beq : continues 0x11280003 0x200 [(8, 7), (9, 7)] 0x204 0x210 = true := by decide
theorem test_beq_not_taken : continues 0x11280003 0x200 [(8, 7), (9, 6)] 0x204 0x208 = true := by decide
theorem test_bne : continues 0x1408FFFD 0x114 [(8, 4)] 0x118 0x10C = true := by decide
theorem test_j : continues 0x080000C8 0x304 [] 0x308 0x320 = true := by decide
theorem test_jal : continues 0x0C0000C8 0x304 [] 0x308 0x320 = true ∧ result 0x0C0000C8 [] 31 0x208 = true := by decide
theorem test_jr : continues 0x03E00008 0x32C [(31, 0x30C)] 0x330 0x30C = true := by decide
theorem test_jalr : continues 0x0100F809 0x400 [(8, 0x800)] 0x404 0x800 = true ∧
    (after (step (start 0x400 [(8, 0x800)] [0x0100F809]))).readReg 31 = 0x408 := by decide
theorem test_syscall : continues 0x0000000C 0x11C [] 0x00020000 0x00020004 = true ∧
    (after (step (start 0x11C [] [0x0000000C]))).trap = some ⟨.syscall, 0x11C, false⟩ := by decide
theorem test_lb : (after (step (withData 0x12345680 (start 0x200 [(9, 0x1000)] [0x812A0003])))).readReg 10 =
    0xFFFFFF80 := by decide
theorem test_lw : (after (step (withData 0x12805680 (start 0x200 [(9, 0x1000)] [0x8D2C0002])))).readReg 12 =
    0x12805680 := by decide
theorem test_sb : (after (step (withData 0x12345680
    (start 0x200 [(8, 0x12345680), (9, 0x1000)] [0xA1280001])))).mem.readWord 0x1000 = 0x12805680 := by decide
theorem test_sw : (after (step (start 0x200 [(8, 0x12345680), (9, 0x1000)] [0xAD280000]))).mem.readWord 0x1000 =
    0x12345680 := by decide

/-! ### The hypotheses of the statements can be met -/

/-- The state after one step, and after two. -/
def after1 (s : State) : State := after (step s)
def after2 (s : State) : State := after (step (after1 s))

theorem not_raises {s : State} {i : Instr} (h : exactResult s i = none) (hi : i ≠ .syscall) (c : Cause) :
    ¬ Raises s i c := by
  rintro (⟨-, z, hz, -⟩ | ⟨-, rfl⟩)
  · rw [h] at hz; cases hz
  · exact hi rfl

theorem raises_overflow {s : State} {i : Instr} (z : Int) (h : exactResult s i = some z) (hz : 2 ^ 31 ≤ z) :
    Raises s i .overflow :=
  .inl ⟨rfl, z, h, fun hf => by unfold FitsWord at hf; omega⟩

theorem noRow_of {w : Word} (h : ∀ row ∈ ([.sll 0 0 0, .srl 0 0 0, .sra 0 0 0, .sllv 0 0 0, .srlv 0 0 0, .srav 0 0 0, .jr 0,
      .jalr 0 0, .syscall, .mfhi 0, .mflo 0, .mult 0 0, .multu 0 0, .div 0 0, .divu 0 0, .add 0 0 0, .addu 0 0 0,
      .sub 0 0 0, .subu 0 0 0, .and 0 0 0, .or 0 0 0, .xor 0 0 0, .nor 0 0 0, .slt 0 0 0, .sltu 0 0 0, .j 0, .jal 0,
      .beq 0 0 0, .bne 0 0 0, .addi 0 0 0, .addiu 0 0 0, .slti 0 0 0, .sltiu 0 0 0, .andi 0 0 0, .ori 0 0 0, .xori 0 0 0,
      .lui 0 0, .lb 0 0 0, .lw 0 0 0, .sb 0 0 0, .sw 0 0 0] : List Instr).map Instr.row, row.selects w = false) :
    NoRow w := by
  intro i
  apply h
  cases i <;> (simp only [Instr.row]; decide)

theorem witness_EncodeThenDecode :
    (Instr.add 31 0 31).wellFormed = true ∧ (Instr.j 0x3FFFFFF).wellFormed = true ∧
    (Instr.sw 31 0xFFFF 0).wellFormed = true := by decide

theorem witness_DecodeThenEncode : decode 0x0BFFFFFF = .ok (.j 0x3FFFFFF) := by decide

theorem witness_DecodeFollowsTheTable :
    decode 0x01095020 = .ok (.add 10 8 9) ∧ (Instr.add 0 0 0).row.selects 0x01095020 = true ∧
    (Instr.add 1 2 3).row.selects 0x01095020 = true := by decide

theorem witness_ReservedWordsFault_1 :
    (start 0x200 [] [0xFC000000]).runEnded = false ∧ (start 0x200 [] [0xFC000000]).fetch = .ok 0xFC000000 ∧
    NoRow 0xFC000000 :=
  ⟨by decide, by decide, noRow_of (by decide)⟩
theorem witness_ReservedWordsFault_2 :
    bits 0x1C000000 26 6 ∈ [1, 6, 7] ∧ bits 0x40000000 26 6 = 16 ∧ bits 0x7C000000 26 6 = 31 ∧
    bits 0x88000000 26 6 ∈ [33, 34] ∧ bits 0x90000000 26 6 = 36 ∧ bits 0x9C000000 26 6 = 39 ∧
    bits 0xA8000000 26 6 ∈ [41, 42] ∧ bits 0xB0000000 26 6 = 44 := by decide
theorem witness_ReservedWordsFault_3 :
    bits 0x00000011 26 6 = 0 ∧ bits 0x00000011 0 6 ∈ [1, 5, 10, 11, 13, 14, 15, 17] ∧ bits 0x00000013 0 6 = 19 ∧
    bits 0x00000017 0 6 = 23 ∧ bits 0x0000001F 0 6 = 31 ∧ bits 0x00000029 0 6 ∈ [40, 41] ∧ bits 0x0000002C 0 6 = 44 := by
  decide
theorem witness_ReservedWordsFault_4 :
    SameOperation 0x00000060 (.add 0 0 0) ∧ (Instr.add 0 0 0).row.selects 0x00000060 = false :=
  ⟨⟨by decide, fun _ => by decide⟩, by decide⟩

theorem witness_RegisterZero :
    blank.params.gpr0IsZero = true ∧
    (State.params { blank with params := { blank.params with gpr0IsZero := false } }).gpr0IsZero = false ∧
    ¬ FitsWord (((start 0x200 [(8, 0x7FFFFFFF), (9, 1)] []).readReg 8).toInt +
      ((start 0x200 [(8, 0x7FFFFFFF), (9, 1)] []).readReg 9).toInt) := by
  refine ⟨rfl, rfl, ?_⟩
  unfold FitsWord
  decide

theorem witness_LaunchStateValues :
    ∃ p w regs hi lo mem s, s = State.launch p w regs hi lo mem ∧ w ≠ p.resetPcWord ∧ s.pc = 0x100 ∧
      p.gpr0IsZero = true ∧ ¬ (p.gpr0IsZero = true ∧ (1 : Reg) = 0) :=
  ⟨Config.resetParams, 0x40, blank.regs, 0, 0, Memory.empty, _, rfl, by decide, by decide, by decide, by decide⟩
theorem witness_LaunchStateValues_top : Aligned 0xFFFFFFFC := by unfold Aligned; decide

theorem witness_LaunchMeetsInvariant : Memory.empty.wf = true ∧ (blank.mem.write 0xFFFFFFFF 1).wf = true := by decide

theorem start_inv : (start 0x200 [(8, 7), (9, 7)] [0x11280003, 0]).Inv where
  mem := by decide
  npc := fun _ => by decide
  slot := fun h => absurd h (by decide)
  load := fun h => absurd (by decide) h
  trap := fun r h => by
    have : (start 0x200 [(8, 7), (9, 7)] [0x11280003, 0]).trap = none := by decide
    rw [this] at h; cases h

theorem witness_StepKeepsInvariant : ∃ s t, State.Inv s ∧ step s = .next t := ⟨_, _, start_inv, eq_next (by decide)⟩

theorem witness_StepKeepsParametersAndProgram :
    ∃ s t a, step s = .next t ∧ inText s.params a = true :=
  ⟨start 0x200 [] [0], _, 0x203, eq_next (by decide), by decide⟩

theorem witness_StepRunsTheDecodedInstruction :
    (start 0xFFFFFFFC [] [0]).runEnded = false ∧ Aligned (start 0xFFFFFFFC [] [0]).pc ∧
    inText (start 0xFFFFFFFC [] [0]).params (start 0xFFFFFFFC [] [0]).pc = true ∧
    decode ((start 0xFFFFFFFC [] [0]).mem.readWord 0xFFFFFFFC) = .ok (.sll 0 0 0) ∧
    (start 0xFFFFFFFC [] [0]).hazard (.sll 0 0 0) = none :=
  ⟨by decide, by unfold Aligned; decide, by decide, by decide, by decide⟩

theorem witness_LoadedWordRuns :
    Aligned State.reset.pc ∧ State.reset.runEnded = false ∧ decode 0x3C081234 = .ok (.lui 8 0x1234) ∧
    State.reset.hazard (.lui 8 0x1234) = none := ⟨by unfold Aligned; decide, by decide, by decide, by decide⟩

/-! The eight clauses of FirstCheckDecides. -/

/-- `blank` without any memory. -/
def unbacked : State := { blank with params := { blank.params with memDomain := [] } }

theorem witness_FirstCheckDecides_1 :
    State.runEnded { blank with pc := 0x202 } = false ∧ ¬ Aligned (State.pc { blank with pc := 0x202 }) :=
  ⟨by decide, by unfold Aligned; decide⟩
theorem witness_FirstCheckDecides_2 : Aligned unbacked.pc ∧ inDomain unbacked.params unbacked.pc = false :=
  ⟨by unfold Aligned; decide, by decide⟩
theorem witness_FirstCheckDecides_3 :
    Aligned State.reset.pc ∧ inDomain State.reset.params State.reset.pc = true ∧
    inText State.reset.params State.reset.pc = false ∧ faultOf (step State.reset) = some .textAccess :=
  ⟨by unfold Aligned; decide, by decide, by decide, by decide⟩
theorem witness_FirstCheckDecides_4 :
    (start 0x200 [] [0x00000060]).fetch = .ok 0x00000060 ∧ decode 0x00000060 = .error .nonzeroField ∧
    faultOf (step (start 0x200 [] [0x00000060])) = some .reservedInstruction := by decide
theorem witness_FirstCheckDecides_5 :
    Fetches { start 0x200 [] [0x080000C8] with ds := true } 0x080000C8 (.j 0xC8) ∧ isTransfer (.j 0xC8) = true :=
  ⟨⟨by decide, by decide, by decide⟩, by decide⟩
theorem witness_FirstCheckDecides_6 :
    Fetches { start 0x200 [] [0x01095021] with ldreg := some 8 } 0x01095021 (.addu 10 8 9) ∧
    State.loadHazard { start 0x200 [] [0x01095021] with ldreg := some 8 } (.addu 10 8 9) = true :=
  ⟨⟨by decide, by decide, by decide⟩, by decide⟩
theorem witness_FirstCheckDecides_7 :
    Fetches { start 0x200 [] [0x01090018] with hlguard := 1 } 0x01090018 (.mult 8 9) ∧
    State.loadHazard { start 0x200 [] [0x01090018] with hlguard := 1 } (.mult 8 9) = false ∧
    State.guardHazard { start 0x200 [] [0x01090018] with hlguard := 1 } (.mult 8 9) = true :=
  ⟨⟨by decide, by decide, by decide⟩, by decide, by decide⟩
/-- A program of one word at 0x200 that loads from address 0x10 to 0x1F; 0x1000 to 0x1003 has no memory. -/
def lwAt (base : Word) : State :=
  { start 0x200 [(9, base)] [0x8D2C0000] with
    params := { Config.resetParams with memDomain := [⟨0, 0x400⟩], textRegion := [⟨0x80, 1⟩] } }
theorem witness_FirstCheckDecides_8 :
    (Fetches (lwAt 0x1000) 0x8D2C0000 (.lw 12 0 9) ∧ (lwAt 0x1000).hazard (.lw 12 0 9) = none ∧
      inDomain (lwAt 0x1000).params 0x1000 = false ∧ faultOf (step (lwAt 0x1000)) = some .unmappedAccess) ∧
    (Fetches (lwAt 0x203) 0x8D2C0000 (.lw 12 0 9) ∧ inDomain (lwAt 0x203).params 0x203 = true ∧
      inText (lwAt 0x203).params 0x203 = true ∧ faultOf (step (lwAt 0x203)) = some .textAccess) ∧
    goesOn (step (lwAt 0xFFC)) = true ∧ goesOn (step (lwAt 0x204)) = true :=
  ⟨⟨⟨by decide, by decide, by decide⟩, by decide, by decide, by decide⟩,
    ⟨⟨by decide, by decide, by decide⟩, by decide, by decide, by decide⟩, by decide, by decide⟩

theorem witness_ProgramCounterAlignment :
    (∃ t, exec (.beq 8 9 0x8000) (start 0x200 [] []) = .next t ∧ Aligned (start 0x200 [] []).npc ∧
      (∀ rs, Instr.beq 8 9 0x8000 ≠ .jr rs) ∧ ∀ rd rs, Instr.beq 8 9 0x8000 ≠ .jalr rd rs) ∧
    ∃ t, exec (.sll 0 0 0) (start 0xFFFFFFF8 [] []) = .next t ∧ (start 0xFFFFFFF8 [] []).npc = 0xFFFFFFFC ∧
      destination (start 0xFFFFFFF8 [] []) (.sll 0 0 0) = none ∧
      ∀ c, ¬ Raises (start 0xFFFFFFF8 [] []) (.sll 0 0 0) c :=
  ⟨⟨_, rfl, by unfold Aligned; decide, nofun, nofun⟩, ⟨_, rfl, by decide, rfl, not_raises rfl nofun⟩⟩

/-! ### Exceptions -/

/-- `$8 = 0x7FFFFFFF`, `$9 = 1`, `$10 = 0x80000000`: one step over the range and exactly at its ends. -/
def ends : State := start 0x200 [(8, 0x7FFFFFFF), (9, 1), (10, 0x80000000)] []

theorem witness_TrappingArithmetic :
    ¬ FitsWord ((ends.readReg 8).toInt + (ends.readReg 9).toInt) ∧ FitsWord ((ends.readReg 8).toInt + 0) ∧
    ¬ FitsWord ((ends.readReg 10).toInt + (0xFFFF : Imm).toInt) ∧ FitsWord ((ends.readReg 10).toInt + (0 : Imm).toInt) ∧
    ¬ FitsWord ((ends.readReg 10).toInt - (ends.readReg 9).toInt) ∧
    FitsWord ((ends.readReg 10).toInt - (ends.readReg 0).toInt) := by
  unfold FitsWord
  decide

theorem ends_raises : Raises ends (.add 11 8 9) .overflow := raises_overflow (2 ^ 31) (by decide) (by decide)

theorem witness_OverflowTest :
    exactResult ends (.add 11 8 9) = some (2 ^ 31) ∧ ¬ FitsWord (2 ^ 31) ∧
    exactResult ends (.sub 11 8 9) = some (2 ^ 31 - 2) ∧ FitsWord (2 ^ 31 - 2) := by
  unfold FitsWord; decide

theorem witness_OnlyTheseInstructionsTrap :
    (∃ t, exec (.add 11 8 9) ends = .next t ∧ Raises ends (.add 11 8 9) .overflow) ∧
    (∃ t, exec .syscall ends = .next t ∧ Raises ends .syscall .syscall) ∧
    ∃ t, exec (.addu 11 8 9) ends = .next t ∧ ∀ c, ¬ Raises ends (.addu 11 8 9) c :=
  ⟨⟨_, eq_next (by decide), ends_raises⟩, ⟨_, rfl, .inr ⟨rfl, rfl⟩⟩, ⟨_, rfl, not_raises rfl nofun⟩⟩

theorem witness_TrapInDelaySlot :
    ∃ s u t, isTransfer (.jal 0xC8) = true ∧ exec (.jal 0xC8) s = .next u ∧ Raises u .syscall .syscall ∧
      exec .syscall u = .next t ∧ u.ds = true ∧ u.readReg 31 = 0x208 :=
  ⟨start 0x200 [] [], _, _, rfl, rfl, .inr ⟨rfl, rfl⟩, rfl, rfl, by decide⟩

theorem traps_takeTrap (s : State) (c : Cause) : Traps s (s.takeTrap c) c :=
  ⟨rfl, rfl, rfl, rfl, rfl, rfl, fun _ => rfl, rfl, rfl, fun _ => rfl, rfl, rfl⟩

/-- `blank` under `TRAP_HALTS` = false. -/
def runsOn : State := { blank with params := { blank.params with trapHalts := false } }

theorem witness_TrapEndsTheRun :
    (Traps blank (blank.takeTrap .syscall) .syscall ∧ blank.params.trapHalts = true) ∧
    (runsOn.takeTrap .overflow).params.trapHalts = false ∧ (runsOn.takeTrap .overflow).trap ≠ none ∧ blank.trap = none :=
  ⟨⟨traps_takeTrap _ _, rfl⟩, rfl, nofun, rfl⟩

/-! ### Results -/

theorem witness_SignedDivision :
    (((start 0 [(8, 0x80000000), (9, 2)] []).readReg 8).toInt = -2 ^ 31 ∧
      ((start 0 [(8, 0x80000000), (9, 2)] []).readReg 9).toInt = 2) ∧
    ((start 0 [(8, 7), (9, 0)] []).readReg 9).toInt = 0 ∧
    ((start 0 [(8, 0x80000000), (9, 0xFFFFFFFF)] []).readReg 8).toInt = -2 ^ 31 ∧
    ((start 0 [(8, 0x80000000), (9, 0xFFFFFFFF)] []).readReg 9).toInt = -1 := by decide

theorem witness_UnsignedDivision :
    ((start 0 [(8, 1), (9, 0xFFFFFFFF)] []).readReg 9).toNat ≠ 0 ∧
    ((start 0 [(8, 1), (9, 0xFFFFFFFF)] []).readReg 10).toNat = 0 := by decide

theorem witness_VariableShifts : 31 = ((start 0 [(8, 0xFFFFFFFF)] []).readReg 8).toNat % 32 := by decide

/-- A load or store at the last byte of the address space, which wraps past its top (R31). -/
theorem witness_LoadResults_StoreResults :
    (start 0x200 [(9, 0x7FFF)] []).effectiveAddress 9 0x8000 = 0xFFFFFFFF ∧
    inDomain (start 0x200 [] []).params 0xFFFFFFFF = true ∧ inText (start 0x200 [] []).params 0xFFFFFFFF = false ∧
    (0xFFFFFFFF : Word).toNat / 4 * 4 = 0xFFFFFFFC := by decide

theorem witness_UnbackedAccessFaults :
    (unbacked.runEnded = false ∧ Aligned unbacked.pc ∧ inDomain unbacked.params unbacked.pc = false) ∧
    (dataAddress unbacked (.sb 8 0xFFFF 9) = some 0xFFFFFFFF ∧ inDomain unbacked.params 0xFFFFFFFF = false) ∧
    ∀ a, inDomain State.reset.params a = true := by
  refine ⟨⟨by decide, by unfold Aligned; decide, by decide⟩, ⟨by decide, by decide⟩, fun a => ?_⟩
  have := a.isLt
  simp [inDomain, inRange, State.reset, State.launch, Config.resetParams]
  omega

theorem witness_ProgramAccessFaults :
    dataAddress (lwAt 0x203) (.lw 12 0 9) = some 0x203 ∧ inText (lwAt 0x203).params 0x203 = true ∧
    faultOf (exec (.lw 12 0 9) (lwAt 0x203)) = some .textAccess := by decide

theorem witness_WordAccessIgnoresLowBits :
    0x400 = (blank.effectiveAddress 0 0x1000).toNat / 4 ∧ 0x400 = (blank.effectiveAddress 0 0x1003).toNat / 4 ∧
    goesOn (exec (.lw 8 0x1000 0) blank) = true ∧ goesOn (exec (.sw 8 0x1000 0) blank) = true := by decide

theorem witness_ArithmeticLaws :
    FitsWord ((ends.readReg 10).toInt + (ends.readReg 8).toInt) ∧ FitsWord ((ends.readReg 8).toInt + (-1 : Imm).toInt) ∧
    FitsWord ((ends.readReg 8).toInt - (ends.readReg 9).toInt) ∧ goesOn (exec (.div 8 9) ends) = true := by
  unfold FitsWord; decide

theorem witness_HiLoWritersAndReaders :
    (goesOn (exec (.addu 10 8 9) ends) = true ∧ writesHiLo (.addu 10 8 9) = false ∧ readsHiLo (.addu 10 8 9) = false) ∧
    writesHiLo (.div 8 9) = true ∧ ends.readReg 9 ≠ 0 ∧
    ¬ ((ends.readReg 8).toInt = -2 ^ 31 ∧ (ends.readReg 9).toInt = -1) := by decide

/-- What `storeByte` and `storeWord` give where they are allowed. -/
def stored : Except Fault State → State
  | .ok t => t
  | .error _ => blank

theorem eq_ok {o : Except Fault State} (h : o.isOk = true) : o = .ok (stored o) := by
  cases o <;> first | rfl | cases h

theorem witness_MixedWidths :
    (∃ t, Aligned 0xFFFFFFFC ∧ 3 < 4 ∧ blank.storeWord 0xFFFFFFFC 0x12345678 = .ok t) ∧
    (∃ t0 t1 t2 t3, blank.storeByte 0xFFFFFFFC 1 = .ok t0 ∧ t0.storeByte (0xFFFFFFFC + 1) 2 = .ok t1 ∧
      t1.storeByte (0xFFFFFFFC + 2) 3 = .ok t2 ∧ t2.storeByte (0xFFFFFFFC + 3) 4 = .ok t3) ∧
    (start 0x200 [] [0x3C081234]).fetch = .ok 0x3C081234 :=
  ⟨⟨_, by unfold Aligned; decide, by decide, eq_ok (by decide)⟩,
    ⟨_, _, _, _, eq_ok (by decide), eq_ok (by decide), eq_ok (by decide), eq_ok (by decide)⟩, by decide⟩

/-- Addresses 0x1000 and 0x1003: one word for SW and LW; 0x1003 twice for SB and LB. -/
theorem witness_StoreThenLoad :
    blank.hardwired 8 = false ∧
    (∃ t, exec (.sw 9 0x1000 0) blank = .next t ∧
      (t.effectiveAddress 0 0x1003).toNat / 4 = (blank.effectiveAddress 0 0x1000).toNat / 4) ∧
    ∃ t, exec (.sb 9 0x1003 0) blank = .next t ∧ t.effectiveAddress 10 0x1003 = blank.effectiveAddress 0 0x1003 := by
  refine ⟨by decide, ⟨_, eq_next (by decide), by decide⟩, ⟨_, eq_next (by decide), by decide⟩⟩

theorem witness_EqualMemoriesAreEqualData :
    ∃ m m' : Memory, m.wf = true ∧ m'.wf = true ∧ ∀ a, m.read a = m'.read a :=
  ⟨Memory.empty.write 4 1, Memory.empty.write 4 1, by decide, by decide, fun _ => rfl⟩

theorem witness_BranchResults :
    (0x1FE04 : Word) = BitVec.ofInt 32 ((start 0x200 [] []).npc.toNat + 4 * (0x7F00 : Imm).toInt) ∧
    (0xFFFE0204 : Word) = BitVec.ofInt 32 ((start 0x200 [] []).npc.toNat + 4 * (0x8000 : Imm).toInt) := by decide

theorem witness_JumpResults :
    (0xFFFFFFFC : Word) =
      BitVec.ofNat 32 ((start 0xF0000000 [] []).pc.toNat / 2 ^ 28 * 2 ^ 28 + (0x3FFFFFF : Target).toNat * 4) := by decide

/-! ### Sequences of two and three instructions -/

/-- A branch, its delay slot, and the branch's target. -/
def branching : State := start 0x200 [(8, 7), (9, 7)] [0x11280003, 0]

theorem branching_fetches : Fetches branching 0x11280003 (.beq 8 9 3) := ⟨by decide, by decide, by decide⟩

theorem witness_DelaySlotExecutesFirst :
    (∃ t, branching.Inv ∧ branching.ds = false ∧ Fetches branching 0x11280003 (.beq 8 9 3) ∧
      isTransfer (.beq 8 9 3) = true ∧ step branching = .next (after1 branching) ∧
      Fetches (after1 branching) 0 (.sll 0 0 0) ∧ (∀ c, ¬ Raises (after1 branching) (.sll 0 0 0) c) ∧
      step (after1 branching) = .next t ∧ t.pc = 0x210) ∧
    ∃ s u, Fetches s 0x0000000C .syscall ∧ Raises s .syscall .syscall ∧ step s = .next u :=
  ⟨⟨_, start_inv, by decide, branching_fetches, rfl, eq_next (by decide), ⟨by decide, by decide, by decide⟩,
      not_raises rfl nofun, eq_next (by decide), by decide⟩,
    ⟨start 0x200 [] [0x0000000C], _, ⟨by decide, by decide, by decide⟩, .inr ⟨rfl, rfl⟩, eq_next (by decide)⟩⟩

theorem witness_BookkeepingUpdate_ControlMovesOn :
    (∃ t, exec (.mfhi 3) blank = .next t ∧ ∀ c, ¬ Raises blank (.mfhi 3) c) ∧
    ∃ t, exec .syscall blank = .next t ∧ Raises blank .syscall .syscall :=
  ⟨⟨_, rfl, not_raises rfl nofun⟩, ⟨_, rfl, .inr ⟨rfl, rfl⟩⟩⟩

theorem witness_NothingElseChanges :
    ∃ t, exec (.sw 8 0x1000 0) blank = .next t ∧ (5 : Reg) ∉ writesOf (.sw 8 0x1000 0) ∧
      0x1004 ∉ storedBytes blank (.sw 8 0x1000 0) ∧ 0x1003 ∈ storedBytes blank (.sw 8 0x1000 0) ∧
      ∀ rs rt, Instr.sw 8 0x1000 0 ≠ .mult rs rt ∧ Instr.sw 8 0x1000 0 ≠ .multu rs rt ∧
        Instr.sw 8 0x1000 0 ≠ .div rs rt ∧ Instr.sw 8 0x1000 0 ≠ .divu rs rt :=
  ⟨_, eq_next (by decide), by decide, by decide, by decide, fun _ _ => ⟨nofun, nofun, nofun, nofun⟩⟩

theorem witness_BranchInDelaySlotFaults :
    ∃ s, Fetches s 0x11280003 (.beq 8 9 3) ∧ step s = .next (after1 s) ∧ Fetches (after1 s) 0x080000C8 (.j 0xC8) ∧
      isTransfer (.j 0xC8) = true ∧ faultOf (step (after1 s)) = some .branchInDelaySlot :=
  ⟨start 0x200 [] [0x11280003, 0x080000C8], ⟨by decide, by decide, by decide⟩, eq_next (by decide),
    ⟨by decide, by decide, by decide⟩, rfl, by decide⟩

/-- `lw $12, 0($9)` from 0x1000, then the word. -/
def loading (w : Word) : State := start 0x200 [(9, 0x1000)] [0x8D2C0000, w]

theorem witness_LoadUseRule_1 :
    (∀ w, w = 0x018A5821 ∨ w = 0x3C0C0001 ∨ w = 0x010A5821 →
      Fetches (loading w) 0x8D2C0000 (.lw 12 0 9) ∧ step (loading w) = .next (after1 (loading w))) ∧
    loadTarget (.lw 12 0 9) = some 12 ∧
    (Fetches (after1 (loading 0x018A5821)) 0x018A5821 (.addu 11 12 10) ∧ 12 ∈ readsOf (.addu 11 12 10) ∧
      faultOf (step (after1 (loading 0x018A5821))) = some .loadUseHazard) ∧
    (Fetches (after1 (loading 0x3C0C0001)) 0x3C0C0001 (.lui 12 1) ∧ 12 ∈ writesOf (.lui 12 1) ∧
      faultOf (step (after1 (loading 0x3C0C0001))) = some .loadUseHazard) ∧
    (Fetches (after1 (loading 0x010A5821)) 0x010A5821 (.addu 11 8 10) ∧ 12 ∉ readsOf (.addu 11 8 10) ∧
      12 ∉ writesOf (.addu 11 8 10) ∧ goesOn (step (after1 (loading 0x010A5821))) = true) ∧
    (after1 (loading 0x018A5821)).params.loadUse = .fault := by
  refine ⟨?_, rfl, ⟨⟨by decide, by decide, by decide⟩, by decide, by decide⟩,
    ⟨⟨by decide, by decide, by decide⟩, by decide, by decide⟩,
    ⟨⟨by decide, by decide, by decide⟩, by decide, by decide, by decide⟩, by decide⟩
  rintro w (rfl | rfl | rfl) <;> exact ⟨⟨by decide, by decide, by decide⟩, eq_next (by decide)⟩

theorem witness_LoadUseRule_2 :
    State.loadHazard { blank with ldreg := some 0 } (.addu 11 0 10) = false ∧
    State.loadHazard { blank with ldreg := some 12, params := { blank.params with loadUse := .newValue } }
      (.addu 11 12 10) = false := by decide

theorem witness_LoadDelayIsInvisible :
    (12 : Reg) ∉ readsOf (.addu 11 8 10) ∧ (12 : Reg) ∉ writesOf (.addu 11 8 10) := by decide

/-- `mfhi $3`, then the words. -/
def reading (ws : List Word) : State := start 0x200 [] (0x00001810 :: ws)

theorem witness_HiLoRule_1 :
    Fetches (reading [0x01090018]) 0x00001810 (.mfhi 3) ∧ readsHiLo (.mfhi 3) = true ∧
    step (reading [0x01090018]) = .next (after1 (reading [0x01090018])) ∧
    Fetches (after1 (reading [0x01090018])) 0x01090018 (.mult 8 9) ∧ writesHiLo (.mult 8 9) = true ∧
    (after1 (reading [0x01090018])).params.hiloRule = .fault ∧
    faultOf (step (after1 (reading [0x01090018]))) = some .hiLoHazard :=
  ⟨⟨by decide, by decide, by decide⟩, rfl, eq_next (by decide), ⟨by decide, by decide, by decide⟩, rfl, by decide,
    by decide⟩

theorem witness_HiLoRule_2 :
    step (reading [0, 0x0109001B]) = .next (after1 (reading [0, 0x0109001B])) ∧
    Fetches (after1 (reading [0, 0x0109001B])) 0 (.sll 0 0 0) ∧
    (∀ c, ¬ Raises (after1 (reading [0, 0x0109001B])) (.sll 0 0 0) c) ∧
    step (after1 (reading [0, 0x0109001B])) = .next (after2 (reading [0, 0x0109001B])) ∧
    Fetches (after2 (reading [0, 0x0109001B])) 0x0109001B (.divu 8 9) ∧
    (after2 (reading [0, 0x0109001B])).loadHazard (.divu 8 9) = false ∧
    (after2 (reading [0, 0x0109001B])).params.hiloRule = .fault ∧
    faultOf (step (after2 (reading [0, 0x0109001B]))) = some .hiLoHazard :=
  ⟨eq_next (by decide), ⟨by decide, by decide, by decide⟩, not_raises rfl nofun, eq_next (by decide),
    ⟨by decide, by decide, by decide⟩, by decide, by decide, by decide⟩

theorem witness_HiLoRule_3 :
    ∃ x, step (after2 (reading [0, 0, 0x01090018])) = .next x ∧
      Fetches (after2 (reading [0, 0, 0x01090018])) 0 (.sll 0 0 0) ∧ readsHiLo (.sll 0 0 0) = false ∧
      Fetches x 0x01090018 (.mult 8 9) ∧ goesOn (step x) = true :=
  ⟨_, eq_next (by decide), ⟨by decide, by decide, by decide⟩, rfl, ⟨by decide, by decide, by decide⟩, by decide⟩

theorem witness_HiLoRule_4 :
    State.guardHazard { blank with hlguard := 2, params := { blank.params with hiloRule := .ignore } } (.mult 8 9) =
      false := by decide

/-- The program beside a data memory that does not hold it: both runs go on. -/
theorem witness_OneMemoryOrTwo :
    ∃ s s' : State, SameButText s s' ∧ HoldsText s.mem s ∧ s'.mem ≠ s.mem ∧
      goesOn (Sys2Proof.core.run 2 s) = true ∧ goesOn (splitRun s.mem 2 s') = true := by
  refine ⟨branching, { branching with mem := branching.mem.write 0x200 0xFF }, ⟨rfl, ?_⟩, fun _ _ => rfl, by decide,
    by decide, by decide⟩
  intro a h
  show (branching.mem.write 0x200 0xFF).read a.toNat = _
  have hne : a.toNat ≠ 0x200 := fun e => by
    have : a = 0x200 := BitVec.eq_of_toNat_eq e
    subst this; revert h; decide
  rw [Memory.read_write, if_neg hne]

end Sys2Proof.Tests
end

section
/-! SUPPORT. Facts of the state family (10_state.md): the bytes of the word that contains an address, and the frame of
each operation, put together once to the frame of every instruction. -/

namespace Sys2Proof.Machine

variable {s t u : State} {i : Instr} {a b : Word}

/-! ### The bytes of a word -/

/-- The bytes of the word that contains `a` are those with its word number (R30, R39). -/
theorem mem_wordBytes {n : Nat} : n ∈ wordBytes a ↔ n / 4 = a.toNat / 4 := by
  simp only [wordBytes, wordAddress_toNat, List.mem_cons, List.not_mem_nil, or_false]
  omega

/-- A word write leaves every byte outside its word alone (R37). -/
theorem Memory.read_writeWord_of_notMem (m : Memory) (v : Word) {n : Nat} (h : n ∉ wordBytes a) :
    (m.writeWord (wordAddress a).toNat v).read n = m.read n := by
  simp only [wordBytes, List.mem_cons, List.not_mem_nil, or_false, not_or] at h
  obtain ⟨h0, h1, h2, h3⟩ := h
  simp [Memory.read_writeWord, h0, h1, h2, h3]

/-! ### The frame of each operation -/

theorem Frame.refl (s : State) : Frame s s [] false [] :=
  ⟨fun _ _ => rfl, fun _ => rfl, fun _ => rfl, fun _ _ => rfl, rfl, rfl⟩

/-- The end of an instruction changes the control state only. -/
theorem Frame.finish {regs : List Reg} {hiLo : Bool} {bytes : List Nat} (h : Frame s u regs hiLo bytes) (n : Word)
    (d : Bool) (l : Option Reg) (g : Fin 3) : Frame s (u.finish n d l g) regs hiLo bytes :=
  ⟨h.regs, h.hi, h.lo, h.mem, h.trap, h.params⟩

theorem State.writeReg_frame (s : State) (r : Reg) (v : Word) : Frame s (s.writeReg r v) [r] false [] where
  regs q hq := by simp [State.readReg_writeReg, List.ne_of_not_mem_cons hq]
  hi _ := by simp
  lo _ := by simp
  mem _ _ := by simp
  trap := by simp
  params := by simp

theorem State.writeHiLo_frame (s : State) (h l : Word) : Frame s (s.writeHiLo h l) [] true [] :=
  ⟨fun _ _ => rfl, nofun, nofun, fun _ _ => rfl, rfl, rfl⟩

theorem State.writeDraws_frame (s : State) : Frame s s.writeDraws [] true [] :=
  ⟨fun _ _ => rfl, nofun, nofun, fun _ _ => rfl, rfl, rfl⟩

/-- A byte store changes the addressed byte only (R38, D21). -/
theorem State.storeByte_frame {v : Byte} (h : s.storeByte a v = .ok t) : Frame s t [] false [a.toNat] := by
  obtain ⟨-, rfl⟩ := State.storeByte_eq_ok.mp h
  refine ⟨fun _ _ => rfl, fun _ => rfl, fun _ => rfl, fun n hn => ?_, rfl, rfl⟩
  simp [Memory.read_write, List.ne_of_not_mem_cons hn]

/-- A word store changes the bytes of the containing word only (R37, R39). -/
theorem State.storeWord_frame {v : Word} (h : s.storeWord a v = .ok t) : Frame s t [] false (wordBytes a) := by
  obtain ⟨-, rfl⟩ := State.storeWord_eq_ok.mp h
  exact ⟨fun _ _ => rfl, fun _ => rfl, fun _ => rfl, fun _ hn => s.mem.read_writeWord_of_notMem v hn, rfl, rfl⟩

/-! ### The frame of every instruction -/

/-- Whatever an instruction answers, it has taken an exception, or it has changed no more than the registers it writes,
HI and LO if it is one of their writers, and the bytes it stores to. -/
theorem exec_frame (h : exec i s = .next t) :
    (∃ c, t = s.takeTrap c) ∨ Frame s t (writesOf i) (writesHiLo i) (storedBytes s i) := by
  have trapping : ∀ {dest : Reg} {wide : BitVec 33}, s.trappingResult dest wide = .next t →
      (∃ c, t = s.takeTrap c) ∨ Frame s t [dest] false [] := fun h => by
    obtain ⟨-, rfl⟩ | ⟨-, rfl⟩ := trappingResult_cases h
    · exact .inl ⟨_, rfl⟩
    · exact .inr ((s.writeReg_frame _ _).finish ..)
  cases i with
  | syscall => cases h; exact .inl ⟨_, rfl⟩
  | add | sub | addi => exact trapping h
  | mult | multu => cases h; exact .inr ((s.writeHiLo_frame _ _).finish ..)
  | div =>
    simp only [exec, execDiv] at h
    split_ifs at h <;> cases h
    · exact .inr (s.writeDraws_frame.finish ..)
    · exact .inr (s.writeDraws_frame.finish ..)
    · exact .inr ((s.writeHiLo_frame _ _).finish ..)
  | divu =>
    simp only [exec, execDivu] at h
    split_ifs at h <;> cases h
    · exact .inr (s.writeDraws_frame.finish ..)
    · exact .inr ((s.writeHiLo_frame _ _).finish ..)
  | jr | j | beq | bne => cases h; exact .inr ((Frame.refl s).finish ..)
  | lb =>
    simp only [exec, execLb] at h
    split at h <;> cases h
    exact .inr ((s.writeReg_frame _ _).finish ..)
  | lw =>
    simp only [exec, execLw] at h
    split at h <;> cases h
    exact .inr ((s.writeReg_frame _ _).finish ..)
  | sb =>
    simp only [exec, execSb] at h
    split at h <;> cases h
    exact .inr ((State.storeByte_frame ‹_›).finish ..)
  | sw =>
    simp only [exec, execSw] at h
    split at h <;> cases h
    exact .inr ((State.storeWord_frame ‹_›).finish ..)
  | _ => cases h; exact .inr ((s.writeReg_frame _ _).finish ..)

/-- MULT, MULTU, DIV and DIVU are the writers of HI and LO, by name (R13). -/
theorem writesHiLo_eq_false
    (h : ∀ rs rt, i ≠ .mult rs rt ∧ i ≠ .multu rs rt ∧ i ≠ .div rs rt ∧ i ≠ .divu rs rt) : writesHiLo i = false := by
  cases i with
  | mult rs rt | multu rs rt | div rs rt | divu rs rt => exact absurd (h rs rt) (by simp)
  | _ => rfl

/-- Only the writers of HI and LO change them (R13). -/
theorem exec_keeps_hiLo (h : exec i s = .next t) (hi : writesHiLo i = false) : t.hi = s.hi ∧ t.lo = s.lo := by
  obtain ⟨c, rfl⟩ | hf := exec_frame h
  · exact ⟨rfl, rfl⟩
  · exact ⟨hf.hi hi, hf.lo hi⟩

/-- Settles O47: trap entry changes none of these, and any other end is within the instruction's frame. -/
theorem nothingElseChanges : Obligations.NothingElseChanges := by
  intro s t i h
  refine ⟨?_, fun hi => exec_keeps_hiLo h (writesHiLo_eq_false hi), ?_, ?_⟩
  all_goals obtain ⟨c, rfl⟩ | hf := exec_frame h
  · exact fun _ _ => rfl
  · exact hf.regs
  · exact fun _ _ => rfl
  · exact hf.mem
  · rfl
  · exact hf.params

end Sys2Proof.Machine
end

section
/-! SUPPORT. The program is out of reach of every instruction (R42), and so of every step. -/

namespace Sys2Proof.Machine

variable {s t u : State} {p : Params} {a b : Word}

/-- Where a data access is allowed, no byte of the program shares the word (R42). -/
theorem div_four_ne_of_dataFault_eq_none (ha : dataFault p a = none) (hb : inText p b = true) :
    b.toNat / 4 ≠ a.toNat / 4 := by
  intro hab
  rw [inText_congr hab, (dataFault_eq_none.mp ha).2] at hb
  cases hb

/-- Nothing an instruction writes is a byte of the program. -/
theorem Body.read_text (h : Body s u) (hb : inText s.params b = true) : u.mem.read b.toNat = s.mem.read b.toNat := by
  cases h with
  | nothing | hiLo | draws => rfl
  | reg => simp
  | byte a v ha =>
    have hne : b.toNat ≠ a.toNat := fun hab => div_four_ne_of_dataFault_eq_none ha hb (by rw [hab])
    simp [Memory.read_write, hne]
  | word a v ha =>
    exact s.mem.read_writeWord_of_notMem v (mt mem_wordBytes.mp (div_four_ne_of_dataFault_eq_none ha hb))

/-- Settles O11: trap entry touches neither, the bodies of the other instructions do not reach the program, and their
ends change control state only. -/
theorem stepKeepsParametersAndProgram : Obligations.StepKeepsParametersAndProgram := by
  intro s t h
  obtain ⟨c, rfl⟩ | ⟨u, n, d, l, g, hu, -, rfl⟩ := step_cases h
  · exact ⟨rfl, fun _ _ => rfl⟩
  · obtain ⟨-, -, -, hparams⟩ := hu.control
    exact ⟨hparams, fun _ hb => hu.read_text hb⟩

end Sys2Proof.Machine
end

section
/-! SUPPORT. Which outcome a step has, by the first of its checks that applies (R15, R214): the converses of
`step_eq_next` and `step_eq_fault`. -/

namespace Sys2Proof.Machine

variable {s : State} {p : Params} {w : Word} {i : Instr} {f : Fault} {a : Word}

/-! ### The checks of the fetch -/

theorem fetchFault_eq_unaligned (h : ¬ Aligned a) : fetchFault p a = some .unalignedFetch := by
  rw [Aligned, ← low_bits_eq_zero] at h
  simp [fetchFault, h]

theorem fetchFault_eq_unmapped (h : Aligned a) (hd : inDomain p a = false) :
    fetchFault p a = some .unmappedAccess := by
  simp [fetchFault, (low_bits_eq_zero a).mpr h, hd]

theorem fetchFault_eq_text (h : Aligned a) (hd : inDomain p a = true) (ht : inText p a = false) :
    fetchFault p a = some .textAccess := by
  simp [fetchFault, (low_bits_eq_zero a).mpr h, hd, ht]

/-! ### The checks of a step, in their order -/

theorem step_of_fetchFault (hr : s.runEnded = false) (hf : fetchFault s.params s.pc = some f) : step s = .fault f := by
  simp [step, hr, State.fetch, hf]

theorem step_of_decode_error {e : Reject} (hr : s.runEnded = false) (hf : s.fetch = .ok w) (hd : decode w = .error e) :
    step s = .fault .reservedInstruction := by
  simp [step, hr, hf, hd]

theorem step_of_hazard (h : Fetches s w i) (hz : s.hazard i = some f) : step s = .fault f := by
  simp [step, h.running, h.fetched, h.decoded, hz]

theorem step_of_no_hazard (h : Fetches s w i) (hz : s.hazard i = none) : step s = exec i s := by
  simp [step, h.running, h.fetched, h.decoded, hz]

/-! ### The hazards, in their order -/

theorem State.delaySlotHazard_eq_true : s.delaySlotHazard i = true ↔ s.ds = true ∧ isTransfer i = true := by
  simp [State.delaySlotHazard]

theorem State.hazard_eq_branchInDelaySlot (h : s.delaySlotHazard i = true) :
    s.hazard i = some .branchInDelaySlot := by
  simp [State.hazard, h]

theorem State.hazard_eq_loadUse (hd : ¬ s.delaySlotHazard i = true) (hl : s.loadHazard i = true) :
    s.hazard i = some .loadUseHazard := by
  simp [State.hazard, hd, hl]

theorem State.hazard_eq_hiLo (hd : ¬ s.delaySlotHazard i = true) (hl : s.loadHazard i = false)
    (hg : s.guardHazard i = true) : s.hazard i = some .hiLoHazard := by
  simp [State.hazard, hd, hl, hg]

/-! ### The checks of a data access -/

/-- A load or store at an address whose check fails answers that check's fault. -/
theorem exec_of_dataFault (ha : dataAddress s i = some a) (hf : dataFault s.params a = some f) :
    exec i s = .fault f := by
  cases i <;> cases ha
  case lb => simp [exec, execLb, State.loadByte, hf]
  case lw => simp [exec, execLw, State.loadWord, hf]
  case sb => simp [exec, execSb, State.storeByte, hf]
  case sw => simp [exec, execSw, State.storeWord, hf]

/-- Settles O14: one lemma per check, each with the checks before it passed. -/
theorem firstCheckDecides : Obligations.FirstCheckDecides := by
  intro s hr
  refine ⟨fun ha => ?_, fun ha hd => ?_, fun ha hd ht => ?_, fun w e hf hd => ?_, fun w i h hds hi => ?_,
    fun w i h hds hl => ?_, fun w i h hds hl hg => ?_, fun w i a h hz ha => ?_⟩
  · exact step_of_fetchFault hr (fetchFault_eq_unaligned ha)
  · exact step_of_fetchFault hr (fetchFault_eq_unmapped ha hd)
  · exact step_of_fetchFault hr (fetchFault_eq_text ha hd ht)
  · exact step_of_decode_error hr hf hd
  · exact step_of_hazard h (State.hazard_eq_branchInDelaySlot (State.delaySlotHazard_eq_true.mpr ⟨hds, hi⟩))
  · exact step_of_hazard h (State.hazard_eq_loadUse (mt State.delaySlotHazard_eq_true.mp hds) hl)
  · exact step_of_hazard h (State.hazard_eq_hiLo (mt State.delaySlotHazard_eq_true.mp hds) hl hg)
  · rw [step_of_no_hazard h hz]
    exact ⟨fun hd => exec_of_dataFault ha (dataFault_eq_unmapped.mpr hd),
      fun hd ht => exec_of_dataFault ha (dataFault_eq_text.mpr ⟨hd, ht⟩)⟩

/-- Settles O12: the checks of the fetch pass at an aligned `pc` in the program, and the fetched word is the four bytes
at `pc`. -/
theorem stepRunsTheDecodedInstruction : Obligations.StepRunsTheDecodedInstruction := by
  intro s i hr ha ht hdec hz
  have hfetch := State.fetch_eq_ok.mpr ⟨fetchFault_eq_none.mpr ⟨ha, ht⟩, rfl⟩
  exact step_of_no_hazard ⟨hr, hfetch, hdec⟩ hz

end Sys2Proof.Machine
end

section
/-! SUPPORT. HI and LO (R13): carrying values of HI and LO through every operation, and the exact products and quotients
that the four writers leave there. -/

namespace Sys2Proof.Machine

variable {i : Instr}

/-! ### Operations that do not look at HI and LO carry them through -/

section
variable (s : State) (h l : Word)

theorem State.writeReg_writeHiLo (r : Reg) (v : Word) :
    (s.writeHiLo h l).writeReg r v = (s.writeReg r v).writeHiLo h l := by
  have hw : (s.writeHiLo h l).hardwired r = s.hardwired r := rfl
  unfold State.writeReg
  rw [hw]
  split <;> rfl

@[simp] theorem State.effectiveAddress_writeHiLo (base : Reg) (offset : Imm) :
    (s.writeHiLo h l).effectiveAddress base offset = s.effectiveAddress base offset := rfl

@[simp] theorem State.loadByte_writeHiLo (a : Word) : (s.writeHiLo h l).loadByte a = s.loadByte a := rfl

@[simp] theorem State.loadWord_writeHiLo (a : Word) : (s.writeHiLo h l).loadWord a = s.loadWord a := rfl

theorem State.storeByte_writeHiLo (a : Word) (v : Byte) :
    (s.writeHiLo h l).storeByte a v = (s.storeByte a v).map fun t => t.writeHiLo h l := by
  unfold State.storeByte
  rw [State.writeHiLo_params]
  split <;> rfl

theorem State.storeWord_writeHiLo (a v : Word) :
    (s.writeHiLo h l).storeWord a v = (s.storeWord a v).map fun t => t.writeHiLo h l := by
  unfold State.storeWord
  rw [State.writeHiLo_params]
  split <;> rfl

theorem State.trappingResult_writeHiLo (dest : Reg) (wide : BitVec 33) :
    (s.writeHiLo h l).trappingResult dest wide = mapNext (fun t => t.writeHiLo h l) (s.trappingResult dest wide) := by
  unfold State.trappingResult
  split
  · rfl
  · exact congrArg (fun u => Host.Outcome.next (State.sequential u)) (s.writeReg_writeHiLo ..)

/-- An instruction that neither writes nor reads HI and LO carries them through. -/
theorem exec_writeHiLo_of_neither (hw : writesHiLo i = false) (hr : readsHiLo i = false) :
    exec i (s.writeHiLo h l) = mapNext (fun t => t.writeHiLo h l) (exec i s) := by
  cases i with
  | mult | multu | div | divu => cases hw
  | mfhi | mflo => cases hr
  | syscall | j | jr | beq | bne => rfl
  | add | addi | sub => exact s.trappingResult_writeHiLo ..
  | jal | jalr => exact congrArg (fun u => Host.Outcome.next (State.transfer u _)) (s.writeReg_writeHiLo ..)
  | lb rt offset base =>
    simp only [exec, execLb, State.effectiveAddress_writeHiLo, State.loadByte_writeHiLo]
    cases s.loadByte (s.effectiveAddress base offset) with
    | error => rfl
    | ok => exact congrArg (fun u => Host.Outcome.next (State.afterLoad u _)) (s.writeReg_writeHiLo ..)
  | lw rt offset base =>
    simp only [exec, execLw, State.effectiveAddress_writeHiLo, State.loadWord_writeHiLo]
    cases s.loadWord (s.effectiveAddress base offset) with
    | error => rfl
    | ok => exact congrArg (fun u => Host.Outcome.next (State.afterLoad u _)) (s.writeReg_writeHiLo ..)
  | sb rt offset base =>
    simp only [exec, execSb, State.effectiveAddress_writeHiLo, State.readReg_writeHiLo, State.storeByte_writeHiLo]
    cases s.storeByte (s.effectiveAddress base offset) _ <;> rfl
  | sw rt offset base =>
    simp only [exec, execSw, State.effectiveAddress_writeHiLo, State.readReg_writeHiLo, State.storeWord_writeHiLo]
    cases s.storeWord (s.effectiveAddress base offset) _ <;> rfl
  | _ => exact congrArg (fun u => Host.Outcome.next (State.sequential u)) (s.writeReg_writeHiLo ..)

/-- MULT, MULTU, DIV and DIVU overwrite both, so what HI and LO held before is gone. -/
theorem exec_writeHiLo_of_writer (hw : writesHiLo i = true) : exec i (s.writeHiLo h l) = exec i s := by
  cases i with
  | mult | multu | div | divu => rfl
  | _ => cases hw

theorem exec_mfhi_writeLo (rd : Reg) :
    exec (.mfhi rd) (s.writeHiLo s.hi l) = mapNext (fun t => t.writeHiLo s.hi l) (exec (.mfhi rd) s) :=
  congrArg (fun u => Host.Outcome.next (State.afterMove u)) (s.writeReg_writeHiLo ..)

theorem exec_mflo_writeHi (rd : Reg) :
    exec (.mflo rd) (s.writeHiLo h s.lo) = mapNext (fun t => t.writeHiLo h s.lo) (exec (.mflo rd) s) :=
  congrArg (fun u => Host.Outcome.next (State.afterMove u)) (s.writeReg_writeHiLo ..)

end

/-- Writing a register, whatever the end, assigns it and changes nothing else. -/
theorem assigns_finish_writeReg (s : State) (rd : Reg) (v n : Word) (d : Bool) (o : Option Reg) (g : Fin 3) :
    Assigns s ((s.writeReg rd v).finish n d o g) rd v :=
  ⟨fun _ => rfl, (s.writeReg_frame rd v).finish ..⟩

/-! ### Products -/

/-- The two words of a 64-bit pattern, read as unsigned. -/
theorem hiLoWords_toNat (t : BitVec 64) :
    (t.extractLsb' 32 32).toNat * 2 ^ 32 + (t.extractLsb' 0 32).toNat = t.toNat := by
  have := t.isLt
  simp only [BitVec.extractLsb'_toNat, Nat.shiftRight_eq_div_pow]
  omega

/-- The two words of a 64-bit pattern, the upper one read as signed. -/
theorem hiLoWords_toInt (t : BitVec 64) :
    (t.extractLsb' 32 32).toInt * 2 ^ 32 + (t.extractLsb' 0 32).toNat = t.toInt := by
  have := hiLoWords_toNat t
  have := t.isLt
  rw [BitVec.toInt_eq_toNat_cond, BitVec.toInt_eq_toNat_cond]
  split <;> split <;> omega

/-- The exact signed product fits 64 bits. -/
theorem toInt_signedProduct (a b : Word) : (BitVec.ofInt 64 (a.toInt * b.toInt)).toInt = a.toInt * b.toInt := by
  have hlo := BitVec.le_toInt_mul_toInt (x := a) (y := b)
  have hhi := BitVec.toInt_mul_toInt_le (x := a) (y := b)
  exact BitVec.toInt_ofInt_eq_self (by omega) (by omega) (by omega)

/-- The exact unsigned product fits 64 bits. -/
theorem toNat_unsignedProduct (a b : Word) : (BitVec.ofNat 64 (a.toNat * b.toNat)).toNat = a.toNat * b.toNat :=
  Nat.mod_eq_of_lt BitVec.toNat_mul_toNat_lt

theorem exec_mult_product (s : State) (rs rt : Reg) :
    ∃ t, exec (.mult rs rt) s = .next t ∧
      t.hi.toInt * 2 ^ 32 + t.lo.toNat = (s.readReg rs).toInt * (s.readReg rt).toInt :=
  ⟨_, rfl, (hiLoWords_toInt _).trans (toInt_signedProduct ..)⟩

theorem exec_multu_product (s : State) (rs rt : Reg) :
    ∃ t, exec (.multu rs rt) s = .next t ∧
      t.hi.toNat * 2 ^ 32 + t.lo.toNat = (s.readReg rs).toNat * (s.readReg rt).toNat :=
  ⟨_, rfl, (hiLoWords_toNat _).trans (toNat_unsignedProduct ..)⟩

/-! ### Quotients -/

/-- `modS` is the remainder of truncating division (D18). -/
theorem modS_eq_tmod (n d : Int) : modS n d = n.tmod d := (Int.tmod_def n d).symm

theorem mul_divS_add_modS (n d : Int) : d * divS n d + modS n d = n := by
  unfold modS
  omega

theorem abs_modS_lt (n : Int) {d : Int} (hd : d ≠ 0) : |modS n d| < |d| := by
  rw [modS_eq_tmod, Int.abs_eq_natAbs, Int.abs_eq_natAbs, Int.natAbs_tmod]
  exact_mod_cast Nat.mod_lt _ (Int.natAbs_pos.mpr hd)

/-- The remainder is a word, as its divisor is. -/
theorem toInt_ofInt_modS (n : Int) (b : Word) (hb : b.toInt ≠ 0) :
    (BitVec.ofInt 32 (modS n b.toInt)).toInt = modS n b.toInt := by
  have hlt := abs_modS_lt n hb
  have hlo := b.le_toInt
  have hhi := b.toInt_lt
  rw [abs_lt] at hlt
  have : |b.toInt| ≤ 2 ^ 31 := abs_le.mpr ⟨by omega, by omega⟩
  exact BitVec.toInt_ofInt_eq_self (by omega) (by omega) (by omega)

/-- The quotient is a word in every case but -2^31 / -1 (D20). -/
theorem toInt_ofInt_divS (a b : Word) (hb : b.toInt ≠ 0) (hab : ¬ (a.toInt = -2 ^ 31 ∧ b.toInt = -1)) :
    (BitVec.ofInt 32 (divS a.toInt b.toInt)).toInt = divS a.toInt b.toInt := by
  have hlo := a.le_toInt
  have hhi := a.toInt_lt
  have hq : (divS a.toInt b.toInt).natAbs ≤ a.toInt.natAbs := Int.natAbs_tdiv_le_natAbs ..
  have hne : divS a.toInt b.toInt ≠ 2 ^ 31 := by
    intro hmax
    have hsum := mul_divS_add_modS a.toInt b.toInt
    have hlt := abs_modS_lt a.toInt hb
    rw [hmax] at hsum hq
    rw [abs_lt] at hlt
    cases abs_cases b.toInt <;> omega
  exact BitVec.toInt_ofInt_eq_self (by omega) (by omega) (by omega)

theorem exec_div_quotient (s : State) (rs rt : Reg) (hb : (s.readReg rt).toInt ≠ 0)
    (hab : ¬ ((s.readReg rs).toInt = -2 ^ 31 ∧ (s.readReg rt).toInt = -1)) :
    ∃ t, exec (.div rs rt) s = .next t ∧
      t.lo.toInt = divS (s.readReg rs).toInt (s.readReg rt).toInt ∧
      t.hi.toInt = modS (s.readReg rs).toInt (s.readReg rt).toInt :=
  ⟨_, (if_neg hb).trans (if_neg hab), toInt_ofInt_divS _ _ hb hab, toInt_ofInt_modS _ _ hb⟩

theorem exec_divu_quotient (s : State) (rs rt : Reg) (hb : (s.readReg rt).toNat ≠ 0) :
    ∃ t, exec (.divu rs rt) s = .next t ∧
      t.lo.toNat = (s.readReg rs).toNat / (s.readReg rt).toNat ∧
      t.hi.toNat = (s.readReg rs).toNat % (s.readReg rt).toNat := by
  have ha := (s.readReg rs).isLt
  exact ⟨_, if_neg hb, Nat.mod_eq_of_lt ((Nat.div_le_self ..).trans_lt ha),
    Nat.mod_eq_of_lt ((Nat.mod_le ..).trans_lt ha)⟩

/-- Settles O54: the frame of the other instructions, the writers' indifference to what HI and LO held, the operations
that carry HI and LO through, and the exact products and quotients. -/
theorem hiLoWritersAndReaders : Obligations.HiLoWritersAndReaders := by
  refine ⟨fun s t i h hw => exec_keeps_hiLo h hw, fun s i h l hw => exec_writeHiLo_of_writer s h l hw,
    fun s i h l hw hr => exec_writeHiLo_of_neither s h l hw hr, fun s rd h l => ?_, ?_⟩
  · exact ⟨exec_mfhi_writeLo s l rd, exec_mflo_writeHi s h rd, ⟨_, rfl, assigns_finish_writeReg ..⟩,
      ⟨_, rfl, assigns_finish_writeReg ..⟩⟩
  · rintro s rs rt _ _ rfl rfl
    refine ⟨exec_mult_product s rs rt, exec_multu_product s rs rt, fun hb hab => ?_, fun hb => ?_⟩
    · have hb : (s.readReg rt).toInt ≠ 0 := BitVec.toInt_ne.mpr hb
      obtain ⟨t, ht, hlo, hhi⟩ := exec_div_quotient s rs rt hb hab
      refine ⟨t, ht, ?_, ?_⟩
      · rw [hlo, hhi, mul_divS_add_modS]
      · rw [hhi]
        exact abs_modS_lt _ hb
    · have hb : (s.readReg rt).toNat ≠ 0 := BitVec.toNat_ne.mp hb
      obtain ⟨t, ht, hlo, hhi⟩ := exec_divu_quotient s rs rt hb
      refine ⟨t, ht, ?_, ?_⟩
      · rw [hlo, hhi, Nat.div_add_mod]
      · rw [hhi]
        exact Nat.mod_lt _ (Nat.pos_of_ne_zero hb)

end Sys2Proof.Machine
end

section
/-! SUPPORT. Facts of the memory family (20_memory.md): a data access sees only the word of its address, and where each
load and store goes on. -/

namespace Sys2Proof.Machine

variable {s t : State} {p : Params} {a b v : Word} {i : Instr} {rt base : Reg} {offset : Imm}

/-! ### Addresses in one word are one access (R39) -/

theorem wordAddress_congr (h : a.toNat / 4 = b.toNat / 4) : wordAddress a = wordAddress b := by
  apply BitVec.eq_of_toNat_eq
  rw [wordAddress_toNat, wordAddress_toNat, h]

theorem dataFault_congr (h : a.toNat / 4 = b.toNat / 4) : dataFault p a = dataFault p b := by
  simp only [dataFault, inDomain_congr h, inText_congr h]

theorem State.loadWord_congr (h : a.toNat / 4 = b.toNat / 4) : s.loadWord a = s.loadWord b := by
  simp only [State.loadWord, dataFault_congr h, wordAddress_congr h]

theorem State.storeWord_congr (h : a.toNat / 4 = b.toNat / 4) : s.storeWord a v = s.storeWord b v := by
  simp only [State.storeWord, dataFault_congr h, wordAddress_congr h]

/-! ### Where a load or store goes on -/

/-- A load or store at an address whose check passes goes on: the converse of `exec_of_dataFault`. -/
theorem exec_next_of_dataFault_eq_none (ha : dataAddress s i = some a) (hf : dataFault s.params a = none) :
    ∃ t, exec i s = .next t := by
  cases i <;> cases ha
  case lb => simp [exec, execLb, State.loadByte, hf]
  case lw => simp [exec, execLw, State.loadWord, hf]
  case sb => simp [exec, execSb, State.storeByte, hf]
  case sw => simp [exec, execSw, State.storeWord, hf]

/-- A load or store goes on exactly where the check of its address passes, whatever its width (R35 to R38). -/
theorem exec_next_iff_dataFault (ha : dataAddress s i = some a) :
    (∃ t, exec i s = .next t) ↔ dataFault s.params a = none := by
  refine ⟨fun ⟨t, ht⟩ => ?_, exec_next_of_dataFault_eq_none ha⟩
  cases hf : dataFault s.params a with
  | none => rfl
  | some f => cases (exec_of_dataFault ha hf).symm.trans ht

/-- Loads and stores of bytes and words in one word go on in the same states. -/
theorem exec_next_congr {j : Instr} (hi : dataAddress s i = some a) (hj : dataAddress s j = some b)
    (h : a.toNat / 4 = b.toNat / 4) : (∃ t, exec i s = .next t) ↔ ∃ t, exec j s = .next t := by
  rw [exec_next_iff_dataFault hi, exec_next_iff_dataFault hj, dataFault_congr h]

/-! ### What LW and SW answer -/

/-- LW assigns the whole word that contains the addressed byte (R152). -/
theorem exec_lw_assigns (h : exec (.lw rt offset base) s = .next t) :
    Assigns s t rt (s.mem.readWord (wordAddress (s.effectiveAddress base offset)).toNat) := by
  simp only [exec, execLw] at h
  split at h <;> cases h
  obtain ⟨-, rfl⟩ := State.loadWord_eq_ok.mp ‹_›
  exact assigns_finish_writeReg ..

/-- SW stores the register's word and goes on in sequence; it never traps (R154). -/
theorem exec_sw_cases (h : exec (.sw rt offset base) s = .next t) :
    ∃ u, s.storeWord (s.effectiveAddress base offset) (s.readReg rt) = .ok u ∧ t = u.sequential := by
  simp only [exec, execSw] at h
  split at h <;> cases h
  exact ⟨_, ‹_›, rfl⟩

/-- After SW the word that contains the addressed byte is the register. -/
theorem exec_sw_readWord (h : exec (.sw rt offset base) s = .next t) :
    t.mem.readWord (wordAddress (s.effectiveAddress base offset)).toNat = s.readReg rt := by
  obtain ⟨u, hu, rfl⟩ := exec_sw_cases h
  obtain ⟨-, rfl⟩ := State.storeWord_eq_ok.mp hu
  exact Memory.readWord_writeWord ..

/-- SW changes the bytes of the containing word only. -/
theorem exec_sw_frame (h : exec (.sw rt offset base) s = .next t) :
    Frame s t [] false (wordBytes (s.effectiveAddress base offset)) := by
  obtain ⟨u, hu, rfl⟩ := exec_sw_cases h
  exact (State.storeWord_frame hu).finish ..

/-- Settles O38: the two addresses have one word address and pass one check; what LW and SW answer is stated by that
word address. -/
theorem wordAccessIgnoresLowBits : Obligations.WordAccessIgnoresLowBits := by
  rintro s rt rt' base base' offset offset' m rfl hm
  have hword : (wordAddress (s.effectiveAddress base offset)).toNat =
      4 * ((s.effectiveAddress base offset).toNat / 4) := by rw [wordAddress_toNat, Nat.mul_comm]
  rw [← hword]
  refine ⟨?_, ?_, fun t h => exec_lw_assigns h, fun t h => ⟨exec_sw_readWord h, exec_sw_frame h⟩,
    exec_next_congr rfl rfl hm.symm, exec_next_congr rfl rfl hm.symm⟩
  · simp only [exec, execLw, State.loadWord_congr hm]
  · simp only [exec, execSw, State.storeWord_congr hm]

end Sys2Proof.Machine
end

section
/-! SUPPORT. Facts of the encoding family (30_encoding.md): the word of an instruction decodes to it, the R-format rule
that the result statements of this family are assembled from, and shifts as multiplication and division. -/

namespace Sys2Proof

open Sys2Proof.Machine

/-! ### The word of an instruction (R51, R57, R59) -/

/-- A word built by the R-format's encoder is decoded by its function code. -/
@[simp] theorem decode_encodeR (rs rt rd : Reg) (sh : Shamt) (f : BitVec 6) :
    decode (encodeR rs rt rd sh f) = decodeSpecial (encodeR rs rt rd sh f) := by
  simp [decode]

/-- The decoder reads every instruction back from its word: by function code in the R-format, by opcode in the
others. -/
theorem decode_encode (i : Instr) : decode (encode i) = .ok i := by
  cases i with
  | j | jal | beq | bne | addi | addiu | slti | sltiu | andi | ori | xori | lui | lb | lw | sb | sw =>
    simp [encode, decode]
  | _ => simp [encode, decodeSpecial]

/-- The R-format word in plain arithmetic is the encoder's (R51). -/
theorem rWord_eq_encodeR (rs rt rd : Reg) (sh : Shamt) (f : BitVec 6) :
    rWord rs rt rd sh f.toNat = encodeR rs rt rd sh f := by
  rw [rWord, ← toNat_encodeR, BitVec.ofNat_toNat, BitVec.setWidth_eq]

end Sys2Proof

namespace Sys2Proof.Machine

variable {s t : State} {i : Instr} {rs rt rd : Reg} {sh : Shamt} {P : State → Prop}

/-- An R-format instruction executes from its word with whatever holds of the state `exec` answers. -/
theorem executes_rWord (f : BitVec 6) (hw : encode i = encodeR rs rt rd sh f) (ht : exec i s = .next t) (hP : P t) :
    Executes (rWord rs rt rd sh f.toNat) i s P := by
  refine ⟨?_, t, ht, hP⟩
  rw [rWord_eq_encodeR, ← hw, decode_encode]

/-! ### What an instruction that goes on in sequence leaves -/

/-- `State.sequential` is the advance of R15 over whatever the instruction wrote before it, if that left `npc` and
`HLGUARD` alone. -/
theorem advances_sequential {u : State} (hn : u.npc = s.npc) (hg : u.hlguard = s.hlguard) :
    Advances s u.sequential where
  pc := hn
  npc := congrArg (· + 4) hn
  ds := rfl
  ldreg := rfl
  hlguard := congrArg (fun g => (guardAfter g).val) hg

/-- Writing a register and going on in sequence computes it. -/
theorem computes_sequential_writeReg (s : State) (rd : Reg) (v : Word) :
    Computes s (s.writeReg rd v).sequential rd v where
  left := {
    dest := by simp [State.readReg_writeReg, State.hardwired]
    frame := (s.writeReg_frame rd v).finish ..
    draws := by simp }
  right := advances_sequential (by simp) (by simp)

/-- Writing HI and LO and going on in sequence changes nothing else. -/
theorem frame_sequential_writeHiLo (s : State) (h l : Word) :
    Frame s (s.writeHiLo h l).sequential [] true [] ∧ Advances s (s.writeHiLo h l).sequential :=
  ⟨(s.writeHiLo_frame h l).finish .., advances_sequential rfl rfl⟩

/-! ### Products -/

/-- Settles O23: the two words of the product pattern, which the exact product fits, within the frame of a write of HI
and LO. -/
theorem exactProducts : Obligations.ExactProducts := by
  intro s rs rt
  constructor
  · obtain ⟨t, ht, hprod⟩ := exec_mult_product s rs rt
    refine executes_rWord 24 rfl ht ⟨hprod, ?_⟩
    cases ht
    exact frame_sequential_writeHiLo ..
  · obtain ⟨t, ht, hprod⟩ := exec_multu_product s rs rt
    refine executes_rWord 25 rfl ht ⟨hprod, ?_⟩
    cases ht
    exact frame_sequential_writeHiLo ..

/-! ### Logical operations -/

/-- Settles O26: each destination is the operation of the model's word type, whose bits the library gives. -/
theorem logicalRegisterForms : Obligations.LogicalRegisterForms := by
  intro s rd rs rt
  refine ⟨executes_rWord 36 rfl rfl ⟨_, computes_sequential_writeReg .., fun k _ => BitVec.getLsbD_and⟩,
    executes_rWord 37 rfl rfl ⟨_, computes_sequential_writeReg .., fun k _ => BitVec.getLsbD_or⟩,
    executes_rWord 38 rfl rfl ⟨_, computes_sequential_writeReg .., fun k _ => BitVec.getLsbD_xor⟩,
    executes_rWord 39 rfl rfl ⟨_, computes_sequential_writeReg .., fun k hk => ?_⟩⟩
  simp [hk]

/-! ### Shifts as multiplication and division (R130 to R136) -/

section
variable {w : Nat} (x : BitVec w) (n : Nat)

theorem shiftLeft_eq_ofNat_mul : x <<< n = BitVec.ofNat w (x.toNat * 2 ^ n) :=
  congrArg (BitVec.ofNat w) (Nat.shiftLeft_eq ..)

theorem ushiftRight_eq_ofNat_div : x >>> n = BitVec.ofNat w (x.toNat / 2 ^ n) := by
  rw [← Nat.shiftRight_eq_div_pow, ← BitVec.toNat_ushiftRight, BitVec.ofNat_toNat, BitVec.setWidth_eq]

/-- The arithmetic shift rounds toward minus infinity. -/
theorem sshiftRight_eq_ofInt_fdiv : x.sshiftRight n = BitVec.ofInt w (x.toInt.fdiv (2 ^ n)) := by
  have hdiv : x.toInt >>> n = x.toInt.fdiv (2 ^ n) := by
    rw [Int.shiftRight_eq_div_pow, Int.fdiv_eq_ediv_of_nonneg _ (by positivity), Nat.cast_pow, Nat.cast_ofNat]
  exact congrArg (BitVec.ofInt w) hdiv

end

/-- The low five bits of the amount register are its value modulo 32 (R130). -/
theorem State.shiftAmount_val (s : State) (rs : Reg) : (s.shiftAmount rs).val = (s.readReg rs).toNat % 32 := by
  simp [State.shiftAmount]

/-- Settles O29: the shift of the model's word type by the amount `State.shiftAmount` takes, in plain arithmetic. -/
theorem variableShifts : Obligations.VariableShifts := by
  rintro s rd rt rs _ rfl
  rw [← State.shiftAmount_val, ← shiftLeft_eq_ofNat_mul, ← ushiftRight_eq_ofNat_div,
    ← sshiftRight_eq_ofInt_fdiv]
  exact ⟨executes_rWord 4 rfl rfl (computes_sequential_writeReg ..),
    executes_rWord 6 rfl rfl (computes_sequential_writeReg ..),
    executes_rWord 7 rfl rfl (computes_sequential_writeReg ..)⟩

end Sys2Proof.Machine
end

section
/-! SUPPORT. Facts of the arithmetic family (40_arithmetic.md): a word is the low bits of its signed and of its unsigned
reading, and a result that fits a word is the sign extension of its low word, so the trapping forms agree with the
wrapping ones. -/

namespace Sys2Proof.Machine

/-! ### Low bits of exact results -/

/-- A word is the low bits of its unsigned reading, as `BitVec.ofInt_toInt` says of the signed one. -/
theorem ofInt_toNat {w : Nat} (a : BitVec w) : BitVec.ofInt w a.toNat = a := by
  rw [BitVec.ofInt_natCast, BitVec.ofNat_toNat, BitVec.setWidth_eq]

theorem ofInt_sub (w : Nat) (x y : Int) : BitVec.ofInt w (x - y) = BitVec.ofInt w x - BitVec.ofInt w y := by
  rw [Int.sub_eq_add_neg, BitVec.ofInt_add, BitVec.ofInt_neg, BitVec.sub_eq_add_neg]

theorem add_eq_ofInt_toInt (a b : Word) : a + b = BitVec.ofInt 32 (a.toInt + b.toInt) := by
  rw [BitVec.ofInt_add, BitVec.ofInt_toInt, BitVec.ofInt_toInt]

theorem sub_eq_ofInt_toInt (a b : Word) : a - b = BitVec.ofInt 32 (a.toInt - b.toInt) := by
  rw [ofInt_sub, BitVec.ofInt_toInt, BitVec.ofInt_toInt]

theorem sub_eq_ofInt_toNat (a b : Word) : a - b = BitVec.ofInt 32 (a.toNat - b.toNat) := by
  rw [ofInt_sub, ofInt_toNat, ofInt_toNat]

/-- Sign extension keeps the value of the immediate (R58, R104). -/
theorem toInt_signExtended (imm : Imm) : (signExtended imm).toInt = imm.toInt :=
  BitVec.toInt_signExtend_of_le (by decide)

theorem add_signExtended_eq_ofInt_toNat (a : Word) (imm : Imm) :
    a + signExtended imm = BitVec.ofInt 32 (a.toNat + imm.toInt) := by
  rw [BitVec.ofInt_add, ofInt_toNat, ← toInt_signExtended, BitVec.ofInt_toInt]

/-! ### The overflow test (R100) where the exact result fits -/

/-- A result that fits a word is, in 33 bits, the sign extension of its low word. -/
theorem ofInt_eq_signExtend_of_fitsWord {z : Int} (h : FitsWord z) :
    BitVec.ofInt 33 z = (BitVec.ofInt 32 z).signExtend 33 := by
  obtain ⟨hlo, hhi⟩ := h
  rw [BitVec.signExtend, BitVec.toInt_ofInt_eq_self (by decide) hlo hhi]

/-- Bits 32 and 31 of a sign-extended word are both its sign. -/
theorem overflows_signExtend (v : Word) : overflows (v.signExtend 33) = false := by
  simp [overflows, BitVec.getElem_signExtend, BitVec.msb_eq_getLsbD_last]

/-- A sign-extended word does not trap and is written as it is. -/
theorem State.trappingResult_signExtend (s : State) (dest : Reg) (v : Word) :
    s.trappingResult dest (v.signExtend 33) = .next (s.writeReg dest v).sequential := by
  have hlow : (v.signExtend 33).setWidth 32 = v := by
    ext k hk
    rw [BitVec.getElem_setWidth, BitVec.getLsbD_signExtend, if_pos hk]
    simp [hk, Nat.lt_succ_of_lt hk]
  rw [State.trappingResult, overflows_signExtend, hlow]
  rfl

theorem wideSum_eq_signExtend {a b : Word} (h : FitsWord (a.toInt + b.toInt)) :
    wideSum a b = (a + b).signExtend 33 := by
  rw [add_eq_ofInt_toInt, ← ofInt_eq_signExtend_of_fitsWord h, BitVec.ofInt_add]
  rfl

theorem wideDifference_eq_signExtend {a b : Word} (h : FitsWord (a.toInt - b.toInt)) :
    wideDifference a b = (a - b).signExtend 33 := by
  rw [sub_eq_ofInt_toInt, ← ofInt_eq_signExtend_of_fitsWord h, ofInt_sub]
  rfl

/-! ### Trapping and wrapping forms agree -/

section
variable {s : State} {rd rs rt : Reg} {imm : Imm}

theorem exec_add_eq_addu (h : FitsWord ((s.readReg rs).toInt + (s.readReg rt).toInt)) :
    exec (.add rd rs rt) s = exec (.addu rd rs rt) s := by
  simp only [exec, execAdd, execAddu, wideSum_eq_signExtend h, State.trappingResult_signExtend]

theorem exec_addi_eq_addiu (h : FitsWord ((s.readReg rs).toInt + imm.toInt)) :
    exec (.addi rt rs imm) s = exec (.addiu rt rs imm) s := by
  rw [← toInt_signExtended] at h
  simp only [exec, execAddi, execAddiu, wideSum_eq_signExtend h, State.trappingResult_signExtend]

theorem exec_sub_eq_subu (h : FitsWord ((s.readReg rs).toInt - (s.readReg rt).toInt)) :
    exec (.sub rd rs rt) s = exec (.subu rd rs rt) s := by
  simp only [exec, execSub, execSubu, wideDifference_eq_signExtend h, State.trappingResult_signExtend]

end

/-! ### The writers of HI and LO take no exception -/

section
variable {s t : State} {i : Instr}

/-- MULT, MULTU, DIV and DIVU write HI and LO, or draws for them, and go on in sequence. -/
theorem exec_cases_of_writesHiLo (h : exec i s = .next t) (hw : writesHiLo i = true) :
    (∃ hi lo, t = (s.writeHiLo hi lo).sequential) ∨ t = s.writeDraws.sequential := by
  cases i with
  | mult | multu => cases h; exact .inl ⟨_, _, rfl⟩
  | div =>
    simp only [exec, execDiv] at h
    split_ifs at h <;> cases h
    · exact .inr rfl
    · exact .inr rfl
    · exact .inl ⟨_, _, rfl⟩
  | divu =>
    simp only [exec, execDivu] at h
    split_ifs at h <;> cases h
    · exact .inr rfl
    · exact .inl ⟨_, _, rfl⟩
  | _ => cases hw

/-- `exec_frame` for these four, without trap entry. -/
theorem exec_frame_of_writesHiLo (h : exec i s = .next t) (hw : writesHiLo i = true) : Frame s t [] true [] := by
  obtain ⟨hi, lo, rfl⟩ | rfl := exec_cases_of_writesHiLo h hw
  · exact (s.writeHiLo_frame hi lo).finish ..
  · exact s.writeDraws_frame.finish ..

end

/-! ### The laws of arithmetic (R111) -/

/-- Settles O53: the sums and differences of words are the low bits of either exact result; the trapping forms write the
same word; the products are exact, and nothing else changes. -/
theorem arithmeticLaws : Obligations.ArithmeticLaws := by
  rintro s rd rs rt imm _ _ rfl rfl
  refine ⟨⟨_, rfl, ?_, ?_⟩, ⟨_, rfl, ?_, ?_⟩, ⟨_, rfl, ?_, ?_⟩, exec_add_eq_addu, exec_addi_eq_addiu, exec_sub_eq_subu,
    ?_, ?_, ?_⟩
  · rw [← add_eq_ofInt_toInt]
    exact assigns_finish_writeReg ..
  · rw [← BitVec.add_def]
    exact assigns_finish_writeReg ..
  · rw [← toInt_signExtended, ← add_eq_ofInt_toInt]
    exact assigns_finish_writeReg ..
  · rw [← add_signExtended_eq_ofInt_toNat]
    exact assigns_finish_writeReg ..
  · rw [← sub_eq_ofInt_toInt]
    exact assigns_finish_writeReg ..
  · rw [← sub_eq_ofInt_toNat]
    exact assigns_finish_writeReg ..
  · obtain ⟨t, ht, hprod⟩ := exec_mult_product s rs rt
    exact ⟨t, ht, hprod, exec_frame_of_writesHiLo ht rfl⟩
  · obtain ⟨t, ht, hprod⟩ := exec_multu_product s rs rt
    exact ⟨t, ht, hprod, exec_frame_of_writesHiLo ht rfl⟩
  · rintro t (ht | ht) <;> exact exec_frame_of_writesHiLo ht rfl

end Sys2Proof.Machine
end

section
/-! SUPPORT. Facts of the shift family (42_shift.md): a shift of a register by 0 to itself changes nothing (R131). -/

namespace Sys2Proof.Machine

/-- Writing what a register reads to the same register changes nothing, hardwired or not (R8, R11). -/
@[simp] theorem State.writeReg_readReg (s : State) (r : Reg) : s.writeReg r (s.readReg r) = s := by
  by_cases hr : s.hardwired r
  · simp [State.writeReg, hr]
  · simp [State.writeReg, State.readReg, hr, Vector.get_eq_getElem]

/-- SLL of a register to itself by 0 only goes on to the next instruction (R131). -/
theorem exec_sll_self_zero (s : State) (r : Reg) : exec (.sll r r 0) s = .next s.sequential := by
  simp [exec, execSll]

/-- Settles O6: the zero word is the encoding of a shift of register 0 to itself by 0. -/
theorem zeroWordDoesNothing : Obligations.ZeroWordDoesNothing := fun s =>
  ⟨decode_encode (.sll 0 0 0), s.sequential, exec_sll_self_zero s 0, (Frame.refl s).finish ..,
    advances_sequential rfl rfl⟩

end Sys2Proof.Machine
end

section
/-! SUPPORT. Facts of the reset and hazards family (70_reset_and_hazards.md): the launch state, when an instruction
takes an exception, and what a branch or jump leaves for the instruction in its delay slot. -/

namespace Sys2Proof.Machine

/-! ### Launch states (R22, R231) -/

/-- The launch `pc` is the host's 30 bits as a word address (R231, log 31). -/
theorem toNat_append_two_zeros (w : BitVec 30) : (w ++ 0#2).toNat = 4 * w.toNat := by
  rw [toNat_append_eq, BitVec.toNat_zero]
  omega

/-- A multiple of 4 is its own word address. -/
theorem wordAddress_of_aligned {a : Word} (h : Aligned a) : wordAddress a = a :=
  BitVec.eq_of_toNat_eq <| by rw [wordAddress_toNat, Nat.div_mul_cancel (Nat.dvd_of_mod_eq_zero h)]

section
variable {s : State} {r : Reg}

theorem State.hardwired_eq_true : s.hardwired r = true ↔ s.params.gpr0IsZero = true ∧ r = 0 := by
  simp [State.hardwired]

/-- An ordinary register reads what it stores (R11). -/
theorem State.readReg_of_not_hardwired (h : ¬ s.hardwired r = true) : s.readReg r = s.regs.get r := if_neg h

end

/-- Settles O8: each field of `State.launch` is what the host supplies or the value R22 gives; the host reaches every
multiple of 4 by its upper 30 bits. -/
theorem launchStateValues : Obligations.LaunchStateValues := by
  refine ⟨?_, fun a ha => ⟨a.extractLsb' 2 30, fun _ _ _ _ _ => wordAddress_of_aligned ha⟩, _, _, _, _, rfl⟩
  rintro p w regs hi lo mem _ rfl
  refine ⟨rfl, toNat_append_two_zeros w, rfl, fun hw => congrArg (· ++ 0#2) hw, rfl, rfl, rfl, rfl, fun h => ?_,
    fun r hr => ?_, rfl, rfl, fun _ => rfl⟩
  · exact State.readReg_of_hardwired (State.hardwired_eq_true.mpr ⟨h, rfl⟩)
  · exact State.readReg_of_not_hardwired (mt State.hardwired_eq_true.mp hr)

/-! ### The exceptions an instruction raises (R100, R200, R201) -/

section
variable {s t : State} {i : Instr} {z : Int} {c : Cause}

/-- A 33-bit result that the overflow test passes is a 32-bit value (R100). -/
theorem fitsWord_toInt_of_overflows_eq_false {wide : BitVec 33} (h : overflows wide = false) :
    FitsWord wide.toInt := by
  have := wide.isLt
  simp only [overflows, BitVec.getLsbD, Nat.testBit_eq_decide_div_mod_eq, bne_eq_false_iff_eq, decide_eq_decide] at h
  rw [FitsWord, BitVec.toInt_eq_toNat_cond]
  split <;> omega

/-- The exact result fits the 33 bits of R101 and R105. -/
theorem exactResult_bounds (h : exactResult s i = some z) : -2 ^ 32 ≤ z ∧ z < 2 ^ 32 := by
  have word (r : Reg) : -2 ^ 31 ≤ (s.readReg r).toInt ∧ (s.readReg r).toInt < 2 ^ 31 :=
    ⟨BitVec.le_toInt .., BitVec.toInt_lt⟩
  cases i <;> cases h
  case add rd rs rt | sub rd rs rt =>
    have := word rs
    have := word rt
    omega
  case addi rt rs imm =>
    have := word rs
    have := imm.le_toInt
    have := imm.toInt_lt
    omega

/-- ADD, ADDI and SUB test the exact result in 33 bits (R100). -/
theorem exec_of_exactResult (h : exactResult s i = some z) :
    ∃ dest, exec i s = s.trappingResult dest (BitVec.ofInt 33 z) := by
  cases i <;> cases h
  case add rd rs rt => exact ⟨rd, by rw [BitVec.ofInt_add]; rfl⟩
  case sub rd rs rt => exact ⟨rd, by rw [ofInt_sub]; rfl⟩
  case addi rt rs imm => exact ⟨rt, by rw [← toInt_signExtended, BitVec.ofInt_add]; rfl⟩

/-- An exact result that fits a word is written, and no exception is taken (R100). -/
theorem exec_of_fitsWord (h : exactResult s i = some z) (hz : FitsWord z) :
    ∃ dest v, exec i s = .next (s.writeReg dest v).sequential := by
  obtain ⟨dest, hexec⟩ := exec_of_exactResult h
  rw [ofInt_eq_signExtend_of_fitsWord hz, State.trappingResult_signExtend] at hexec
  exact ⟨dest, _, hexec⟩

/-- An exact result that does not fit a word is an overflow (R100). -/
theorem exec_of_not_fitsWord (h : exactResult s i = some z) (hz : ¬ FitsWord z) :
    exec i s = .next (s.takeTrap .overflow) := by
  obtain ⟨dest, hexec⟩ := exec_of_exactResult h
  obtain ⟨hlo, hhi⟩ := exactResult_bounds h
  rw [← BitVec.toInt_ofInt_eq_self (w := 33) (by decide) hlo hhi] at hz
  have hover : overflows (BitVec.ofInt 33 z) = true :=
    (Bool.not_eq_false _).mp <| mt fitsWord_toInt_of_overflows_eq_false hz
  rw [hexec, State.trappingResult, if_pos hover]

/-- An instruction that raises a cause answers trap entry with that cause (R205). -/
theorem exec_of_raises (h : Raises s i c) : exec i s = .next (s.takeTrap c) := by
  obtain ⟨rfl, z, hz, hfit⟩ | ⟨rfl, rfl⟩ := h
  · exact exec_of_not_fitsWord hz hfit
  · rfl

/-- An instruction that raises nothing moves `npc` to `pc` (R15). -/
theorem exec_pc_of_not_raises (h : exec i s = .next t) (hr : ∀ c, ¬ Raises s i c) : t.pc = s.npc := by
  have trapping {z : Int} (hz : exactResult s i = some z) : t.pc = s.npc := by
    have hfit : FitsWord z := by_contra fun hfit => hr .overflow (.inl ⟨rfl, z, hz, hfit⟩)
    obtain ⟨dest, v, hexec⟩ := exec_of_fitsWord hz hfit
    cases h.symm.trans hexec
    simp
  cases i with
  | add | sub | addi => exact trapping rfl
  | syscall => exact absurd (.inr ⟨rfl, rfl⟩) (hr .syscall)
  | mult | multu | div | divu => obtain ⟨_, _, rfl⟩ | rfl := exec_cases_of_writesHiLo h rfl <;> rfl
  | lb | lw =>
    simp only [exec, execLb, execLw] at h
    split at h <;> cases h
    simp
  | sb =>
    simp only [exec, execSb] at h
    split at h <;> cases h
    obtain ⟨-, rfl⟩ := State.storeByte_eq_ok.mp ‹_›
    rfl
  | sw =>
    obtain ⟨u, hu, rfl⟩ := exec_sw_cases h
    obtain ⟨-, rfl⟩ := State.storeWord_eq_ok.mp hu
    rfl
  | _ => cases h; simp

end

/-! ### What a branch or jump leaves (R160, R170 to R174) -/

/-- The branch target in plain arithmetic (R160). -/
theorem State.branchTarget_eq (s : State) (offset : Imm) :
    s.branchTarget offset = BitVec.ofInt 32 (s.npc.toNat + 4 * offset.toInt) := by
  have hoffset : branchOffset offset = BitVec.ofInt 32 (4 * offset.toInt) :=
    congrArg (BitVec.ofInt 32) BitVec.toInt_append_zero
  rw [BitVec.ofInt_add, ofInt_toNat, ← hoffset, State.branchTarget]

/-- The jump target in plain arithmetic (R171, D27). -/
theorem State.jumpTarget_eq (s : State) (target : Target) :
    s.jumpTarget target = BitVec.ofNat 32 (s.pc.toNat / 2 ^ 28 * 2 ^ 28 + target.toNat * 4) := by
  have := s.pc.isLt
  apply BitVec.eq_of_toNat_eq
  refine (toNat_append_eq (s.pc.extractLsb' 28 4 ++ target) 0#2).trans ?_
  simp only [toNat_append_eq, BitVec.extractLsb'_toNat, Nat.shiftRight_eq_div_pow, BitVec.toNat_ofNat]
  omega

section
variable {s u : State} {i : Instr}

/-- A branch or jump, taken or not, goes on to its delay slot, with its destination behind it (R233). -/
theorem exec_transfer (hi : isTransfer i = true) (h : exec i s = .next u) :
    u.pc = s.npc ∧ u.ds = true ∧ destination s i = some u.npc := by
  cases i <;> cases hi <;> cases h
  case beq | bne => simp [destination, State.branchTarget_eq]
  case j | jal => simp [destination, State.jumpTarget_eq]
  case jr | jalr => simp [destination]

/-- JAL links in register 31, which is never hardwired (R172). -/
theorem exec_jal_link {target : Target} (h : exec (.jal target) s = .next u) : u.readReg 31 = s.pc + 8 := by
  cases h
  simp [State.readReg_writeReg, State.hardwired, State.linkValue]

/-- JALR links in `rd` unless that is hardwired (R174). -/
theorem exec_jalr_link {rd rs : Reg} (h : exec (.jalr rd rs) s = .next u) (hrd : s.hardwired rd = false) :
    u.readReg rd = s.pc + 8 := by
  cases h
  simp [State.readReg_writeReg, hrd, State.linkValue]

/-- A step that answers a next state executes the instruction it fetches. -/
theorem exec_of_step {w : Word} (hf : Fetches s w i) (h : step s = .next u) : exec i s = .next u := by
  obtain ⟨w', i', -, hw, hi, -, hexec⟩ := step_eq_next h
  cases hf.fetched.symm.trans hw
  cases hf.decoded.symm.trans hi
  exact hexec

end

/-- Settles O44: outside a delay slot the address behind `pc` is `pc + 4`, where the branch or jump goes on with its
destination behind it; the instruction there moves on to that unless it traps. -/
theorem delaySlotExecutesFirst : Obligations.DelaySlotExecutesFirst := by
  constructor
  · intro s u t w w' i j hinv hds hi htransfer hsu hj hr hut
    have hexec := exec_of_step hi hsu
    obtain ⟨hpc, hslot, hdest⟩ := exec_transfer htransfer hexec
    have htpc : t.pc = u.npc := exec_pc_of_not_raises (exec_of_step hj hut) hr
    refine ⟨hpc.trans (hinv.npc hds), hslot, htpc ▸ hdest, ?_, ?_⟩
    · rintro target rfl
      exact exec_jal_link hexec
    · rintro rd rs rfl hrd
      exact exec_jalr_link hexec hrd
  · intro s u w i c hi hraises hsu
    cases (exec_of_raises hraises).symm.trans (exec_of_step hi hsu)
    rfl

end Sys2Proof.Machine
end

section
/-! SUPPORT. The decoder and the opcode table (30_encoding.md): a word that decodes is the word of its instruction, a
word that matches a row decodes to an instruction of that row, and so the words that match no row. -/

namespace Sys2Proof

open Sys2Proof.Machine

variable {w : Word} {i j : Instr}

/-- Settles O2: the decoder reads every instruction back from its word. -/
theorem encodeThenDecode : Obligations.EncodeThenDecode := fun i _ => decode_encode i

/-- Settles O1: the fifteen words, each decoded. -/
theorem specWordsDecode : Obligations.SpecWordsDecode := by
  unfold Obligations.SpecWordsDecode
  decide

/-! ### A word that decodes is the word of its instruction -/

/-- An R-format word is put together from its fields, of which those shown as 0 are 0 (R54, R56). -/
theorem encode_of_decodeSpecial (hop : opField w = 0) (h : decodeSpecial w = .ok i) : encode i = w := by
  have fields := encodeR_fields w hop
  unfold decodeSpecial at h
  split at h
  case h_26 => cases h
  all_goals
    rename_i hfunct
    simp only [whenZero_eq_ok, Bool.and_eq_true, beq_iff_eq] at h
    obtain ⟨hzero, rfl⟩ := h
    simpa [encode, hfunct, hzero] using fields

theorem encode_of_decode (h : decode w = .ok i) : encode i = w := by
  unfold decode at h
  split at h <;> rename_i hop
  case h_1 => exact encode_of_decodeSpecial hop h
  case h_2 | h_3 =>
    cases h
    simpa [encode, hop] using encodeJ_fields w
  case h_13 =>
    rw [whenZero_eq_ok, beq_iff_eq] at h
    obtain ⟨hrs, rfl⟩ := h
    simpa [encode, hop, hrs] using encodeI_fields w
  case h_18 => cases h
  all_goals
    cases h
    simpa [encode, hop] using encodeI_fields w

/-- Settles O3: no bit of a word that decodes is left over. -/
theorem decodeThenEncode : Obligations.DecodeThenEncode :=
  fun _ i h => ⟨i.wellFormed_eq_true, encode_of_decode h⟩

/-! ### The rows of the opcode table -/

/-- The word of an instruction matches the instruction's row. -/
theorem Laws.MaskMatch.statement : ∀ i : Instr, Statement i
  | .sll .. => sll .. | .srl .. => srl .. | .sra .. => sra .. | .sllv .. => sllv .. | .srlv .. => srlv ..
  | .srav .. => srav .. | .jr .. => jr .. | .jalr .. => jalr .. | .syscall => syscall
  | .mfhi .. => mfhi .. | .mflo .. => mflo .. | .mult .. => mult .. | .multu .. => multu ..
  | .div .. => div .. | .divu .. => divu .. | .add .. => add .. | .addu .. => addu .. | .sub .. => sub ..
  | .subu .. => subu .. | .and .. => and .. | .or .. => or .. | .xor .. => xor .. | .nor .. => nor ..
  | .slt .. => slt .. | .sltu .. => sltu .. | .j .. => j .. | .jal .. => jal .. | .beq .. => beq ..
  | .bne .. => bne .. | .addi .. => addi .. | .addiu .. => addiu .. | .slti .. => slti ..
  | .sltiu .. => sltiu .. | .andi .. => andi .. | .ori .. => ori .. | .xori .. => xori ..
  | .lui .. => lui .. | .lb .. => lb .. | .lw .. => lw .. | .sb .. => sb .. | .sw .. => sw ..

theorem selects_encode (i : Instr) : i.row.selects (encode i) = true := beq_iff_eq.mpr (Laws.MaskMatch.statement i)

theorem bits_op (w : Word) : bits w 26 6 = (opField w).toNat := by
  have := w.isLt
  rw [opField_toNat, bits]
  omega

theorem bits_funct (w : Word) : bits w 0 6 = (functField w).toNat := by
  rw [functField_toNat, bits, pow_zero, Nat.div_one]

theorem bits_rs (w : Word) : bits w 21 5 = (rsField w).val := (rsField_val w).symm
theorem bits_rt (w : Word) : bits w 16 5 = (rtField w).val := (rtField_val w).symm
theorem bits_rd (w : Word) : bits w 11 5 = (rdField w).val := (rdField_val w).symm
theorem bits_shamt (w : Word) : bits w 6 5 = (shamtField w).val := (shamtField_val w).symm
theorem bits_imm (w : Word) : bits w 0 16 = (immField w).toNat := by
  rw [immField_toNat, bits, pow_zero, Nat.div_one]
theorem bits_target (w : Word) : bits w 0 26 = (targetField w).toNat := by
  rw [targetField_toNat, bits, pow_zero, Nat.div_one]

/-- The operands of an instruction are the fields of its word. -/
theorem fieldsOf_encode (i : Instr) : FieldsOf (encode i) i := by
  cases i <;>
    simp [FieldsOf, encode, bits_rs, bits_rt, bits_rd, bits_shamt, bits_imm, bits_target]

/-- What a match says of each field of the R-format. -/
theorem fields_of_selects {row : Row} (h : row.selects w = true) :
    opField w &&& row.mask.extractLsb' 26 6 = row.pattern.extractLsb' 26 6 ∧
    fieldBits (rsField w) &&& row.mask.extractLsb' 21 5 = row.pattern.extractLsb' 21 5 ∧
    fieldBits (rtField w) &&& row.mask.extractLsb' 16 5 = row.pattern.extractLsb' 16 5 ∧
    fieldBits (rdField w) &&& row.mask.extractLsb' 11 5 = row.pattern.extractLsb' 11 5 ∧
    fieldBits (shamtField w) &&& row.mask.extractLsb' 6 5 = row.pattern.extractLsb' 6 5 ∧
    functField w &&& row.mask.extractLsb' 0 6 = row.pattern.extractLsb' 0 6 := by
  obtain ⟨mask, pattern⟩ := row
  obtain rfl : w &&& mask = pattern := beq_iff_eq.mp h
  exact ⟨BitVec.extractLsb'_and.symm, BitVec.extractLsb'_and.symm, BitVec.extractLsb'_and.symm,
    BitVec.extractLsb'_and.symm, BitVec.extractLsb'_and.symm, BitVec.extractLsb'_and.symm⟩

/-- A field that a row's mask covers whole. -/
theorem and_63 (x : BitVec 6) : x &&& 63#6 = x := BitVec.and_allOnes

theorem fieldBits_and_31 (n : Fin 32) : fieldBits n &&& 31#5 = 0#5 ↔ n = 0 := by
  rw [show (31#5) = BitVec.allOnes 5 from rfl, BitVec.and_allOnes]
  exact ⟨congrArg BitVec.toFin, congrArg fieldBits⟩

/-- Every row fixes the whole opcode and, where that is 0, the whole function code (R55, R56). -/
theorem opcode_mask (i : Instr) : i.row.mask.extractLsb' 26 6 = 63#6 := by
  cases i <;> simp only [Instr.row] <;> decide

theorem funct_mask (h : opField (encode i) = 0) : i.row.mask.extractLsb' 0 6 = 63#6 := by
  cases i
  case j | jal | beq | bne | addi | addiu | slti | sltiu | andi | ori | xori | lui | lb | lw | sb | sw =>
    simp [encode] at h
  all_goals simp only [Instr.row]; decide

theorem opField_of_selects (h : i.row.selects w = true) : opField w = opField i.row.pattern := by
  obtain ⟨hop, -⟩ := fields_of_selects h
  rwa [opcode_mask, and_63] at hop

theorem functField_of_selects (h : i.row.selects w = true) (h0 : opField (encode i) = 0) :
    functField w = functField i.row.pattern := by
  obtain ⟨-, -, -, -, -, hfunct⟩ := fields_of_selects h
  rwa [funct_mask h0, and_63] at hfunct

/-- `SameOperation` in the fields that the decoder looks at. -/
theorem sameOperation_iff : SameOperation w i ↔
    opField w = opField (encode i) ∧ (opField w = 0 → functField w = functField (encode i)) := by
  have hzero : (opField w).toNat = 0 ↔ opField w = 0 := BitVec.toNat_inj (y := 0)
  rw [SameOperation, bits_op, bits_op, bits_funct, bits_funct, BitVec.toNat_inj, BitVec.toNat_inj, hzero,
    ← opField_of_selects (selects_encode i)]
  refine and_congr_right fun hop => forall_congr' fun h0 => ?_
  rw [functField_of_selects (selects_encode i) (hop ▸ h0)]

/-- The opcode and, where that is 0, the function code determine the row of whatever a word decodes to. -/
theorem row_of_decode (h : SameOperation w i) (hd : decode w = .ok j) : j.row = i.row := by
  obtain ⟨hop, hfunct⟩ := sameOperation_iff.mp h
  cases i
  case j | jal | beq | bne | addi | addiu | slti | sltiu | andi | ori | xori | lb | lw | sb | sw =>
    simp only [encode, opField_encodeI, opField_encodeJ] at hop
    simp [decode, hop] at hd
    subst hd
    rfl
  case lui =>
    simp only [encode, opField_encodeI] at hop
    simp [decode, hop] at hd
    obtain ⟨-, rfl⟩ := hd
    rfl
  all_goals
    simp only [encode, opField_encodeR, functField_encodeR] at hop hfunct
    simp [decode, hop, decodeSpecial, hfunct hop] at hd
    obtain ⟨-, rfl⟩ := hd
    rfl

theorem sameOperation_of_selects (h : i.row.selects w = true) : SameOperation w i := by
  have self := selects_encode i
  have hop : opField w = opField (encode i) := (opField_of_selects h).trans (opField_of_selects self).symm
  refine sameOperation_iff.mpr ⟨hop, fun h0 => ?_⟩
  have h0 := hop ▸ h0
  exact (functField_of_selects h h0).trans (functField_of_selects self h0).symm

/-- The decoder refuses no word that matches a row: the row fixes every field shown as 0. -/
theorem decode_ne_error_of_selects (h : i.row.selects w = true) (e : Reject) : decode w ≠ .error e := by
  intro hd
  obtain ⟨hop, hfunct⟩ := sameOperation_iff.mp (sameOperation_of_selects h)
  obtain ⟨-, hrs, hrt, hrd, hsh, -⟩ := fields_of_selects h
  cases i
  case j | jal | beq | bne | addi | addiu | slti | sltiu | andi | ori | xori | lb | lw | sb | sw =>
    simp only [encode, opField_encodeI, opField_encodeJ] at hop
    simp [decode, hop] at hd
  case lui =>
    simp only [encode, opField_encodeI] at hop
    simp only [Instr.row] at hrs
    simp [fieldBits_and_31] at hrs
    simp [decode, hop, hrs, whenZero] at hd
  all_goals
    simp only [encode, opField_encodeR, functField_encodeR] at hop hfunct
    simp only [Instr.row] at hrs hrt hrd hsh
    simp [fieldBits_and_31] at hrs hrt hrd hsh
    simp [decode, hop, decodeSpecial, hfunct hop, hrs, hrt, hrd, hsh, whenZero] at hd

theorem decode_of_selects (h : i.row.selects w = true) : ∃ j, decode w = .ok j ∧ j.row = i.row := by
  cases hd : decode w with
  | error e => exact absurd hd (decode_ne_error_of_selects h e)
  | ok j => exact ⟨j, rfl, row_of_decode (sameOperation_of_selects h) hd⟩

/-- Settles O4: a word that decodes is its instruction's word, which matches the row and has the operands as fields; a
word that matches two rows would decode to an instruction of each. -/
theorem decodeFollowsTheTable : Obligations.DecodeFollowsTheTable := by
  refine ⟨fun w i h => ?_, fun w i h => decode_of_selects h, fun w i j hi hj => ?_⟩
  · obtain rfl := encode_of_decode h
    exact ⟨selects_encode i, fieldsOf_encode i⟩
  · obtain ⟨k, hk, hki⟩ := decode_of_selects hi
    exact hki.symm.trans (row_of_decode (sameOperation_of_selects hj) hk)

/-! ### The words that match no row -/

/-- A word matches no row exactly when it decodes to no instruction (R60). -/
theorem noRow_iff : NoRow w ↔ ∀ i, decode w ≠ .ok i := by
  constructor
  · intro h i hd
    obtain rfl := encode_of_decode hd
    cases (h i).symm.trans (selects_encode i)
  · intro h i
    refine Bool.eq_false_iff.mpr fun hi => ?_
    obtain ⟨j, hj, -⟩ := decode_of_selects hi
    exact h j hj

/-- What decodes has one of the opcodes of the primary matrix (R55) and, under opcode 0, one of the function codes of
the SPECIAL matrix (R56). -/
theorem opcode_of_decode (h : decode w = .ok i) :
    bits w 26 6 ∈ [0, 2, 3, 4, 5, 8, 9, 10, 11, 12, 13, 14, 15, 32, 35, 40, 43] := by
  rw [bits_op]
  unfold decode at h
  split at h
  case h_18 => cases h
  all_goals rename_i hop; rw [hop]; decide

theorem funct_of_decode (h0 : bits w 26 6 = 0) (h : decode w = .ok i) :
    bits w 0 6 ∈ [0, 2, 3, 4, 6, 7, 8, 9, 12, 16, 18, 24, 25, 26, 27, 32, 33, 34, 35, 36, 37, 38, 39, 42, 43] := by
  rw [bits_op] at h0
  have h0 : opField w = 0#6 := BitVec.toNat_inj.mp h0
  rw [bits_funct]
  unfold decode at h
  simp only [h0] at h
  unfold decodeSpecial at h
  split at h
  case h_26 => cases h
  all_goals rename_i hfunct; rw [hfunct]; decide

/-- Settles O5: the decoder refuses a word that matches no row; an unused opcode or function code decodes to nothing,
and what a listed one decodes to has the listed row. -/
theorem reservedWordsFault : Obligations.ReservedWordsFault := by
  refine ⟨fun s w hr hf h => ?_, fun w hop => noRow_iff.mpr fun i hd => ?_,
    fun w h0 hfunct => noRow_iff.mpr fun i hd => ?_, fun w i hi hrow j => ?_⟩
  · cases hd : decode w with
    | error e => exact step_of_decode_error hr hf hd
    | ok i => exact absurd hd (noRow_iff.mp h i)
  · have := opcode_of_decode hd
    simp only [List.mem_cons, List.not_mem_nil, or_false] at this hop
    omega
  · have := funct_of_decode h0 hd
    simp only [List.mem_cons, List.not_mem_nil, or_false] at this hfunct
    omega
  · refine Bool.eq_false_iff.mpr fun hj => ?_
    obtain ⟨k, hk, hkj⟩ := decode_of_selects hj
    rw [← hkj, row_of_decode hi hk, hrow] at hj
    cases hj

end Sys2Proof
end

section
/-! SUPPORT. What every instruction leaves (R15, R21, R205): trap entry with the cause it raises, or a body and the end
that its destination, its load target and the moves from HI and LO give it. -/

namespace Sys2Proof.Machine

variable {s t u : State} {i j : Instr} {c : Cause} {a : Word}

/-! ### Trap entry -/

theorem State.takeTrap_traps (s : State) (c : Cause) : Traps s (s.takeTrap c) c :=
  ⟨rfl, rfl, rfl, rfl, rfl, rfl, fun _ => rfl, rfl, rfl, fun _ => rfl, rfl, rfl⟩

theorem traps_of_raises (h : exec i s = .next t) (hr : Raises s i c) : Traps s t c := by
  cases h.symm.trans (exec_of_raises hr)
  exact s.takeTrap_traps c

theorem raises_unique {d : Cause} (hc : Raises s i c) (hd : Raises s i d) : c = d := by
  cases (exec_of_raises hc).symm.trans (exec_of_raises hd)
  rfl

/-- Settles O16: the word is SYSCALL's, which raises its cause in every state. -/
theorem syscallTakesTheTrap : Obligations.SyscallTakesTheTrap := fun s =>
  ⟨decode_encode .syscall, _, rfl, s.takeTrap_traps .syscall⟩

/-! ### Instructions that raise nothing -/

/-- `HLGUARD` after an instruction that raises nothing (R21). -/
def State.guardBehind (s : State) (i : Instr) : Fin 3 := if readsHiLo i then 2 else guardAfter s.hlguard

theorem isTransfer_eq (s : State) (i : Instr) : isTransfer i = (destination s i).isSome := by
  cases i <;> rfl

section
variable (s : State) (r : Reg) (v : Word)

/-! The ends after a register write, which leaves `npc` and `HLGUARD` alone. -/

theorem State.sequential_writeReg : (s.writeReg r v).sequential =
    (s.writeReg r v).finish (s.npc + 4) false none (guardAfter s.hlguard) := by simp

theorem State.afterLoad_writeReg : (s.writeReg r v).afterLoad r =
    (s.writeReg r v).finish (s.npc + 4) false (some r) (guardAfter s.hlguard) := by simp

theorem State.afterMove_writeReg : (s.writeReg r v).afterMove =
    (s.writeReg r v).finish (s.npc + 4) false none 2 := by simp

theorem State.transfer_writeReg (a : Word) : (s.writeReg r v).transfer a =
    (s.writeReg r v).finish a true none (guardAfter s.hlguard) := by simp

end

/-- `exec_cases` where nothing is raised, with the end that the instruction has. -/
theorem exec_of_not_raises (h : exec i s = .next t) (hr : ∀ c, ¬ Raises s i c) :
    ∃ u, Body s u ∧
      t = u.finish ((destination s i).getD (s.npc + 4)) (isTransfer i) (loadTarget i) (s.guardBehind i) := by
  have trapping {z : Int} (hz : exactResult s i = some z) : ∃ dest v, t = (s.writeReg dest v).sequential := by
    have hfit : FitsWord z := by_contra fun hfit => hr .overflow (.inl ⟨rfl, z, hz, hfit⟩)
    obtain ⟨dest, v, hexec⟩ := exec_of_fitsWord hz hfit
    cases h.symm.trans hexec
    exact ⟨dest, v, rfl⟩
  cases i with
  | add | sub | addi =>
    obtain ⟨dest, v, rfl⟩ := trapping rfl
    exact ⟨_, .reg dest v, s.sequential_writeReg ..⟩
  | syscall => exact absurd (.inr ⟨rfl, rfl⟩) (hr .syscall)
  | mult | multu | div | divu =>
    obtain ⟨hi, lo, rfl⟩ | rfl := exec_cases_of_writesHiLo h rfl
    · exact ⟨_, .hiLo hi lo, rfl⟩
    · exact ⟨_, .draws, rfl⟩
  | j | jr | beq | bne =>
    obtain ⟨-, -, hdest⟩ := exec_transfer rfl h
    cases h
    exact ⟨s, .nothing, by rw [hdest]; rfl⟩
  | jal | jalr =>
    obtain ⟨-, -, hdest⟩ := exec_transfer rfl h
    cases h
    exact ⟨_, .reg _ _, by rw [hdest]; exact s.transfer_writeReg ..⟩
  | lb | lw =>
    simp only [exec, execLb, execLw] at h
    split at h <;> cases h
    exact ⟨_, .reg _ _, s.afterLoad_writeReg ..⟩
  | sb =>
    simp only [exec, execSb] at h
    split at h <;> cases h
    obtain ⟨hf, rfl⟩ := State.storeByte_eq_ok.mp ‹_›
    exact ⟨_, .byte _ _ hf, rfl⟩
  | sw =>
    obtain ⟨u, hu, rfl⟩ := exec_sw_cases h
    obtain ⟨hf, rfl⟩ := State.storeWord_eq_ok.mp hu
    exact ⟨_, .word _ _ hf, rfl⟩
  | mfhi | mflo => cases h; exact ⟨_, .reg _ _, s.afterMove_writeReg ..⟩
  | _ => cases h; exact ⟨_, .reg _ _, s.sequential_writeReg ..⟩

theorem exec_control (h : exec i s = .next t) (hr : ∀ c, ¬ Raises s i c) :
    Control s t ((destination s i).getD (s.npc + 4)) (isTransfer i) (loadTarget i) (s.guardBehind i).val := by
  obtain ⟨u, hu, rfl⟩ := exec_of_not_raises h hr
  obtain ⟨-, hnpc, -, -⟩ := hu.control
  exact ⟨hnpc, rfl, rfl, rfl, rfl⟩

/-- Settles O46: the control state after an instruction that raises nothing. -/
theorem controlMovesOn : Obligations.ControlMovesOn := fun _ _ _ h hr =>
  ⟨(exec_control h hr).pc, (exec_control h hr).npc⟩

/-- Settles O45: the bookkeeping after an instruction that raises nothing, and what trap entry clears. -/
theorem bookkeepingUpdate : Obligations.BookkeepingUpdate := by
  intro s t i h
  refine ⟨fun hr => ?_, fun c hr => ?_⟩
  · obtain ⟨-, -, hds, hldreg, hguard⟩ := exec_control h hr
    refine ⟨by rw [hds, isTransfer_eq s], hldreg.trans ?_, hguard.trans ?_⟩
    · cases i <;> rfl
    · cases i <;> rfl
  · have htraps := traps_of_raises h hr
    exact ⟨htraps.ds, htraps.ldreg, htraps.hlguard⟩

/-- Settles O19: trap entry with the one cause that is raised, and no trap where none is. -/
theorem onlyTheseInstructionsTrap : Obligations.OnlyTheseInstructionsTrap := by
  refine fun s t i h => ⟨fun c => traps_of_raises h, fun hr => ?_, fun c d => raises_unique⟩
  obtain ⟨u, hu, rfl⟩ := exec_of_not_raises h hr
  obtain ⟨-, hnpc, htrap, -⟩ := hu.control
  exact ⟨htrap, hnpc⟩

/-- No instruction changes a parameter (R24). -/
theorem exec_keeps_params (h : exec i s = .next t) : t.params = s.params := by
  obtain ⟨c, rfl⟩ | hf := exec_frame h
  · rfl
  · exact hf.params

/-- Settles O20: the branch or jump has left its delay slot at `pc` with `DS` set, which trap entry records; the pending
destination is overwritten. -/
theorem trapInDelaySlot : Obligations.TrapInDelaySlot := by
  intro s u t i j c hi hsu hraises hut
  obtain ⟨hpc, hds, -⟩ := exec_transfer hi hsu
  have htraps := traps_of_raises hut hraises
  rw [← exec_keeps_params hsu, ← hpc, ← hds]
  exact ⟨htraps.trap, htraps.pc, htraps.npc, htraps.ds, htraps.regs⟩

/-! ### The end of the run (R212, R244) -/

/-- A step is refused only where a trap has ended the run. -/
theorem runEnded_of_step_refused {r : Refusal} (h : step s = .refused r) : s.runEnded = true := by
  by_contra hr
  unfold step at h
  rw [if_neg hr] at h
  split at h
  · cases h
  · split at h
    · cases h
    · split at h
      · cases h
      · exact exec_ne_refused h

theorem step_of_runEnded (h : s.runEnded = true) : step s = .refused .runEnded := if_pos h

theorem State.runEnded_eq_true : s.runEnded = true ↔ s.params.trapHalts = true ∧ s.trap.isSome = true :=
  Bool.and_eq_true_iff

/-- Settles O21: the run has ended exactly where `TRAP_HALTS` holds and a trap is recorded, and the record says
which. -/
theorem trapEndsTheRun : Obligations.TrapEndsTheRun := by
  refine ⟨fun s t c h hhalts => ?_, fun s hhalts r h => ?_, fun s htrap r h => ?_⟩
  · have hended : t.runEnded = true := State.runEnded_eq_true.mpr ⟨by rw [h.params, hhalts], by rw [h.trap]; rfl⟩
    refine ⟨step_of_runEnded hended, ?_, ?_⟩
    · simp [State.endedNormally, hended, h.trap]
    · simp [State.endedInError, hended, h.trap]
  · obtain ⟨hhalts', -⟩ := State.runEnded_eq_true.mp (runEnded_of_step_refused h)
    cases hhalts.symm.trans hhalts'
  · obtain ⟨-, hsome⟩ := State.runEnded_eq_true.mp (runEnded_of_step_refused h)
    rw [htrap] at hsome
    cases hsome

/-! ### Aligned addresses (R16) -/

theorem aligned_append (w : BitVec 30) : Aligned (w ++ 0#2) := by
  rw [Aligned, toNat_append_two_zeros]
  omega

theorem aligned_add_four (h : Aligned a) : Aligned (a + 4) := by
  unfold Aligned at h ⊢
  rw [BitVec.toNat_add, show (4 : Word).toNat = 4 from rfl]
  omega

/-- Only JR and JALR can have a destination that is no multiple of 4 (R160, R171). -/
theorem aligned_destination (hn : Aligned s.npc) (hjr : ∀ rs, i ≠ .jr rs) (hjalr : ∀ rd rs, i ≠ .jalr rd rs)
    (ha : destination s i = some a) : Aligned a := by
  have branch (c : Prop) [Decidable c] (offset : Imm) :
      Aligned (if c then BitVec.ofInt 32 (s.npc.toNat + 4 * offset.toInt) else s.npc + 4) := by
    split
    · unfold Aligned at hn ⊢
      rw [BitVec.toNat_ofInt]
      omega
    · exact aligned_add_four hn
  cases i <;> cases ha
  case beq | bne => exact branch ..
  case j | jal =>
    rw [Aligned, BitVec.toNat_ofNat]
    omega
  case jr rs => exact absurd rfl (hjr rs)
  case jalr rd rs => exact absurd rfl (hjalr rd rs)

/-- Settles O15: trap entry goes to the handler, a multiple of 4; an instruction that raises nothing goes on to `npc`
with its destination or the next address behind it. -/
theorem programCounterAlignment : Obligations.ProgramCounterAlignment := by
  refine ⟨fun s hr ha => step_of_fetchFault hr (fetchFault_eq_unaligned ha), fun s t i h hn hjr hjalr => ?_,
    fun p => ⟨aligned_append _, aligned_append _⟩, fun s t i h hn hdest hr => ?_⟩
  · by_cases hr : ∃ c, Raises s i c
    · obtain ⟨c, hr⟩ := hr
      have htraps := traps_of_raises h hr
      rw [htraps.pc, htraps.npc]
      exact ⟨aligned_append _, aligned_add_four (aligned_append _)⟩
    · obtain ⟨hpc, hnpc, -, -, -⟩ := exec_control h (not_exists.mp hr)
      rw [hpc, hnpc]
      refine ⟨hn, ?_⟩
      cases hdest : destination s i with
      | none => exact aligned_add_four hn
      | some a => exact aligned_destination hn hjr hjalr hdest
  · obtain ⟨hpc, hnpc, -, -, -⟩ := exec_control h hr
    rw [hpc, hnpc, hdest, hn]
    exact ⟨rfl, rfl⟩

/-! ### The invariant (R14, R21) -/

/-- Settles O9: at launch no byte is out of order, `npc` is behind `pc`, and the bookkeeping is clear. -/
theorem launchMeetsInvariant : Obligations.LaunchMeetsInvariant := by
  have launch (p : Params) (w : BitVec 30) (regs : Vector Word 32) (hi lo : Word) (mem : Memory)
      (hmem : mem.wf = true) : (State.launch p w regs hi lo mem).Inv :=
    ⟨hmem, fun _ => rfl, nofun, fun h => absurd rfl h, nofun⟩
  exact ⟨launch _ _ _ _ _ _ rfl, launch⟩

/-- What an instruction writes keeps the canonical form of memory. -/
theorem Body.mem_wf (h : Body s u) (hm : s.mem.wf = true) : u.mem.wf = true := by
  cases h with
  | nothing | hiLo | draws => exact hm
  | reg => simpa using hm
  | byte a b => exact Memory.wf_write hm a.isLt b
  | word a v => exact Memory.wf_writeWord hm (wordAddress_lt a) v

/-- A guard that has been lowered is not full (R21). -/
theorem guardAfter_le_one (g : Fin 3) : (guardAfter g).val ≤ 1 := by
  rw [guardAfter_val]
  omega

/-- Settles O10: a step fetches at a multiple of 4, which trap entry records; trap entry clears the bookkeeping, and
each end of the other instructions sets it as the invariant asks. -/
theorem stepKeepsInvariant : Obligations.StepKeepsInvariant := by
  intro s t hinv h
  obtain ⟨w, i, -, hfetch, -, -, -⟩ := step_eq_next h
  obtain ⟨hpc, -⟩ := fetchFault_eq_none.mp (State.fetch_eq_ok.mp hfetch).1
  obtain ⟨c, rfl⟩ | ⟨u, n, d, l, g, hu, hend, rfl⟩ := step_cases h
  · refine ⟨hinv.mem, fun _ => rfl, nofun, fun h => absurd rfl h, fun r hr => ?_⟩
    cases hr
    exact hpc
  · obtain ⟨-, hnpc, htrap, -⟩ := hu.control
    have hmem := hu.mem_wf hinv.mem
    have htrap' : ∀ r, u.trap = some r → Aligned r.epc := htrap ▸ hinv.trap
    cases hend with
    | sequential => exact ⟨hmem, fun _ => congrArg (· + 4) hnpc.symm, nofun, fun h => absurd rfl h, htrap'⟩
    | load rt => exact ⟨hmem, fun _ => congrArg (· + 4) hnpc.symm, nofun, fun _ => guardAfter_le_one _, htrap'⟩
    | move => exact ⟨hmem, fun _ => congrArg (· + 4) hnpc.symm, nofun, fun h => absurd rfl h, htrap'⟩
    | transfer => exact ⟨hmem, nofun, fun _ => ⟨rfl, guardAfter_le_one _⟩, fun h => absurd rfl h, htrap'⟩

end Sys2Proof.Machine
end

section
/-! SUPPORT. Updates that an instruction does not see: writing a register that it does not name (R236), and exchanging
the bytes of memory that it cannot reach (R42). -/

namespace Sys2Proof.Machine

variable {s t u : State} {i : Instr} {f : State → State} {p : Params} {a : Word} {m m' : Memory}

/-! ### Updates that commute with an instruction -/

/-- The update `f` is out of the sight of `i` in `s`: it changes nothing that `i` reads, and commutes with everything
that `i` writes. -/
structure Unseen (f : State → State) (s : State) (i : Instr) : Prop where
  readReg : ∀ q ∈ readsOf i, (f s).readReg q = s.readReg q
  writeReg : ∀ q ∈ writesOf i, ∀ v, (f s).writeReg q v = f (s.writeReg q v)
  hi : (f s).hi = s.hi
  lo : (f s).lo = s.lo
  writeHiLo : ∀ h l, (f s).writeHiLo h l = f (s.writeHiLo h l)
  writeDraws : (f s).writeDraws = f s.writeDraws
  loadByte : ∀ a, (f s).loadByte a = s.loadByte a
  loadWord : ∀ a, (f s).loadWord a = s.loadWord a
  storeByte : ∀ rt offset base, i = .sb rt offset base → ∀ a v, (f s).storeByte a v = (s.storeByte a v).map f
  storeWord : ∀ rt offset base, i = .sw rt offset base → ∀ a v, (f s).storeWord a v = (s.storeWord a v).map f
  pc : (f s).pc = s.pc
  npc : ∀ u, (f u).npc = u.npc
  hlguard : ∀ u, (f u).hlguard = u.hlguard
  finish : ∀ u n d l g, (f u).finish n d l g = f (u.finish n d l g)
  takeTrap : ∀ c, (f s).takeTrap c = f (s.takeTrap c)

namespace Unseen

theorem sequential (h : Unseen f s i) (u : State) : (f u).sequential = f u.sequential := by
  simp only [State.sequential_eq, h.npc, h.hlguard, h.finish]

theorem afterLoad (h : Unseen f s i) (u : State) (r : Reg) : (f u).afterLoad r = f (u.afterLoad r) := by
  simp only [State.afterLoad_eq, h.npc, h.hlguard, h.finish]

theorem afterMove (h : Unseen f s i) (u : State) : (f u).afterMove = f u.afterMove := by
  simp only [State.afterMove_eq, h.npc, h.finish]

theorem transfer (h : Unseen f s i) (u : State) (a : Word) : (f u).transfer a = f (u.transfer a) := by
  simp only [State.transfer_eq, h.hlguard, h.finish]

theorem trappingResult (h : Unseen f s i) {dest : Reg} (hd : dest ∈ writesOf i) (wide : BitVec 33) :
    (f s).trappingResult dest wide = mapNext f (s.trappingResult dest wide) := by
  unfold State.trappingResult
  split
  · rw [h.takeTrap]
    rfl
  · rw [h.writeReg _ hd, h.sequential]
    rfl

/-- An instruction carries an update that it does not see. -/
theorem exec_eq (h : Unseen f s i) : exec i (f s) = mapNext f (exec i s) := by
  have hr := h.readReg
  have hw := h.writeReg
  have htrap {dest : Reg} := @h.trappingResult (dest := dest)
  cases i <;>
    simp only [readsOf, writesOf, List.mem_cons, List.not_mem_nil, or_false, forall_eq_or_imp, forall_eq] at hr hw htrap
  case syscall => exact congrArg Host.Outcome.next (h.takeTrap .syscall)
  case add | addi | sub => simp only [exec, execAdd, execAddi, execSub, hr, htrap]
  case mult | multu =>
    simp only [exec, execMult, execMultu, hr, State.writeProduct, h.writeHiLo, h.sequential, mapNext]
  case div | divu =>
    simp only [exec, execDiv, execDivu, hr, h.writeDraws, h.writeHiLo, h.sequential]
    split_ifs <;> rfl
  case j | jr | beq | bne =>
    simp only [exec, execJ, execJr, execBeq, execBne, hr, State.branch, State.branchTarget, State.jumpTarget, h.pc,
      h.npc, h.transfer, mapNext]
  case jal | jalr =>
    simp only [exec, execJal, execJalr, hr, hw, State.linkValue, State.jumpTarget, h.pc, h.transfer, mapNext]
  case mfhi | mflo => simp only [exec, execMfhi, execMflo, hw, h.hi, h.lo, h.afterMove, mapNext]
  case lb | lw =>
    simp only [exec, execLb, execLw, State.effectiveAddress, hr, h.loadByte, h.loadWord]
    split <;> simp only [hw, h.afterLoad, mapNext]
  case sb rt offset base =>
    simp only [exec, execSb, State.effectiveAddress, hr, h.storeByte _ _ _ rfl]
    cases s.storeByte (signExtended offset + s.readReg base) _ with
    | error => rfl
    | ok t => exact congrArg Host.Outcome.next (h.sequential t)
  case sw rt offset base =>
    simp only [exec, execSw, State.effectiveAddress, hr, h.storeWord _ _ _ rfl]
    cases s.storeWord (signExtended offset + s.readReg base) _ with
    | error => rfl
    | ok t => exact congrArg Host.Outcome.next (h.sequential t)
  case lui => simp only [exec, execLui, hw, h.sequential, mapNext]
  case sll | srl | sra | sllv | srlv | srav =>
    simp only [exec, execSll, execSrl, execSra, execSllv, execSrlv, execSrav, State.shiftAmount, hr, hw, h.sequential,
      mapNext]
  case addu | subu | addiu =>
    simp only [exec, execAddu, execSubu, execAddiu, hr, hw, h.sequential, mapNext]
  case and | or | xor | nor | andi | ori | xori =>
    simp only [exec, execAnd, execOr, execXor, execNor, execAndi, execOri, execXori, hr, hw, h.sequential, mapNext]
  case slt | sltu | slti | sltiu =>
    simp only [exec, execSlt, execSltu, execSlti, execSltiu, hr, hw, h.sequential, mapNext]

end Unseen

/-! ### Writing a register that the instruction does not name (R236) -/

section
variable (s : State) (r : Reg) (v : Word)

/-- A register write as one update of the registers. -/
theorem State.writeReg_eq :
    s.writeReg r v = { s with regs := if s.hardwired r then s.regs else s.regs.set r.val v r.isLt } := by
  unfold State.writeReg
  split <;> rfl

theorem State.writeReg_setMem (m : Memory) :
    State.writeReg { s with mem := m } r v = { s.writeReg r v with mem := m } := by
  simp only [State.writeReg_eq]
  rfl

theorem State.writeReg_finish (n : Word) (d : Bool) (l : Option Reg) (g : Fin 3) :
    (s.finish n d l g).writeReg r v = (s.writeReg r v).finish n d l g := by
  simp only [State.writeReg_eq]
  rfl

theorem State.writeReg_takeTrap (c : Cause) : (s.takeTrap c).writeReg r v = (s.writeReg r v).takeTrap c := by
  simp only [State.writeReg_eq]
  rfl

theorem State.writeReg_writeDraws : s.writeDraws.writeReg r v = (s.writeReg r v).writeDraws := by
  simp only [State.writeReg_eq]
  rfl

theorem State.writeReg_comm {q : Reg} (h : q ≠ r) (x : Word) :
    (s.writeReg r v).writeReg q x = (s.writeReg q x).writeReg r v := by
  have hval : r.val ≠ q.val := fun hval => h (Fin.ext hval.symm)
  have hwired (regs : Vector Word 32) (p : Reg) : State.hardwired { s with regs := regs } p = s.hardwired p := rfl
  by_cases hr : s.hardwired r <;> by_cases hq : s.hardwired q <;>
    simp [State.writeReg_eq, hwired, hr, hq, Vector.set_comm _ _ hval]

theorem unseen_writeReg (hr : r ∉ readsOf i) (hw : r ∉ writesOf i) : Unseen (fun t => t.writeReg r v) s i where
  readReg q hq := by rw [State.readReg_writeReg, if_neg (ne_of_mem_of_not_mem hq hr)]
  writeReg q hq x := s.writeReg_comm r v (ne_of_mem_of_not_mem hq hw) x
  hi := by simp
  lo := by simp
  writeHiLo h l := (s.writeReg_writeHiLo h l r v).symm
  writeDraws := (s.writeReg_writeDraws r v).symm
  loadByte a := by simp [State.loadByte]
  loadWord a := by simp [State.loadWord]
  storeByte rt offset base _ a b := by
    simp only [State.storeByte, State.writeReg_eq]
    cases dataFault s.params a <;> rfl
  storeWord rt offset base _ a x := by
    simp only [State.storeWord, State.writeReg_eq]
    cases dataFault s.params a <;> rfl
  pc := by simp
  npc _ := by simp
  hlguard _ := by simp
  finish u n d l g := (u.writeReg_finish r v n d l g).symm
  takeTrap c := (s.writeReg_takeTrap r v c).symm

end

/-- Settles O50: a register that the instruction neither reads nor writes is out of its sight. -/
theorem loadDelayIsInvisible : Obligations.LoadDelayIsInvisible := fun s _ r v hr hw =>
  (unseen_writeReg s r v hr hw).exec_eq

/-! ### Exchanging bytes of the program (R42) -/

/-- Memories that agree on one side of the boundary of `TEXT_REGION` agree on every word of that side. -/
theorem Memory.readWord_congr_inText {side : Bool} (hm : ∀ a, inText p a = side → m'.read a.toNat = m.read a.toNat)
    (ha : Aligned a) (hside : inText p a = side) : m'.readWord a.toNat = m.readWord a.toNat := by
  refine Memory.readWord_congr fun k hk => ?_
  have := a.isLt
  unfold Aligned at ha
  have hb : (BitVec.ofNat 32 (a.toNat + k)).toNat = a.toNat + k := by
    rw [BitVec.toNat_ofNat]
    omega
  rw [← hb]
  exact hm _ ((inText_congr (by omega)).trans hside)

theorem aligned_wordAddress (a : Word) : Aligned (wordAddress a) := by
  rw [Aligned, wordAddress_toNat]
  omega

/-- Loads reach no byte of the program, so they do not see it exchanged. -/
theorem State.loadByte_setMem (hm : ∀ b, inText s.params b = false → m.read b.toNat = s.mem.read b.toNat) :
    State.loadByte { s with mem := m } a = s.loadByte a := by
  unfold State.loadByte
  cases hf : dataFault s.params a with
  | some => rfl
  | none => exact congrArg Except.ok (hm a (dataFault_eq_none.mp hf).2)

theorem State.loadWord_setMem (hm : ∀ b, inText s.params b = false → m.read b.toNat = s.mem.read b.toNat) :
    State.loadWord { s with mem := m } a = s.loadWord a := by
  unfold State.loadWord
  cases hf : dataFault s.params a with
  | some => rfl
  | none =>
    have htext : inText s.params (wordAddress a) = false := by
      rw [inText_congr (b := a) (by rw [wordAddress_toNat]; omega), (dataFault_eq_none.mp hf).2]
    exact congrArg Except.ok (Memory.readWord_congr_inText hm (aligned_wordAddress a) htext)

/-- Fetches stay in the program. -/
theorem State.fetch_setMem (hm : HoldsText m s) : State.fetch { s with mem := m } = s.fetch := by
  unfold State.fetch
  cases hf : fetchFault s.params s.pc with
  | some => rfl
  | none =>
    obtain ⟨ha, htext⟩ := fetchFault_eq_none.mp hf
    exact congrArg Except.ok (Memory.readWord_congr_inText hm ha htext)

theorem unseen_setMem (hm : ∀ b, inText s.params b = false → m.read b.toNat = s.mem.read b.toNat)
    (hi : storedBytes s i = []) : Unseen (fun t => { t with mem := m }) s i where
  readReg _ _ := rfl
  writeReg _ _ _ := s.writeReg_setMem ..
  hi := rfl
  lo := rfl
  writeHiLo _ _ := rfl
  writeDraws := rfl
  loadByte _ := State.loadByte_setMem hm
  loadWord _ := State.loadWord_setMem hm
  storeByte _ _ _ h := by subst h; cases hi
  storeWord _ _ _ h := by subst h; cases hi
  pc := rfl
  npc _ := rfl
  hlguard _ := rfl
  finish _ _ _ _ _ := rfl
  takeTrap _ := rfl

/-- Every byte that an instruction leaves alone keeps its value (R38, R153, R154). -/
theorem exec_keeps_byte (h : exec i s = .next t) {n : Nat} (hn : n ∉ storedBytes s i) :
    t.mem.read n = s.mem.read n := by
  obtain ⟨c, rfl⟩ | hf := exec_frame h
  · rfl
  · exact hf.mem n hn

/-- An instruction from two states that are equal but for the program ends alike: a store writes the same bytes in both,
any other instruction carries the difference through. -/
theorem exec_endAlike (hm : ∀ b, inText s.params b = false → m.read b.toNat = s.mem.read b.toNat) (i : Instr) :
    EndAlike (exec i s) (exec i { s with mem := m }) := by
  by_cases hi : storedBytes s i = []
  · rw [(unseen_setMem hm hi).exec_eq]
    cases ht : exec i s with
    | next t =>
      refine ⟨rfl, fun a ha => ?_⟩
      rw [exec_keeps_params ht] at ha
      exact (hm a ha).trans (exec_keeps_byte ht (hi ▸ List.not_mem_nil)).symm
    | fault => rfl
    | refused => rfl
  · cases i with
    | sb rt offset base =>
      have ha : State.effectiveAddress { s with mem := m } base offset = s.effectiveAddress base offset := rfl
      simp only [exec, execSb, State.storeByte, ha, State.readReg_setMem]
      cases dataFault s.params (s.effectiveAddress base offset) with
      | some => rfl
      | none => exact ⟨rfl, fun b hb => by
          simp only [State.sequential_eq, State.finish_mem, Memory.read_write, hm b hb]⟩
    | sw rt offset base =>
      have ha : State.effectiveAddress { s with mem := m } base offset = s.effectiveAddress base offset := rfl
      simp only [exec, execSw, State.storeWord, ha, State.readReg_setMem]
      cases dataFault s.params (s.effectiveAddress base offset) with
      | some => rfl
      | none => exact ⟨rfl, fun b hb => by
          simp only [State.sequential_eq, State.finish_mem, Memory.read_writeWord, hm b hb]⟩
    | _ => exact absurd rfl hi

/-- One step of either reading. -/
theorem step_endAlike {s' : State} {program : Memory} (h : SameButText s s') (hp : HoldsText program s) :
    EndAlike (step s) (splitStep program s') := by
  obtain ⟨heq, hm⟩ := h
  have hexec := exec_endAlike hm
  generalize s'.mem = m at heq hm hexec
  subst heq
  have hfetch : State.fetch { s with mem := program } = s.fetch := State.fetch_setMem hp
  have hended : State.runEnded { s with mem := m } = s.runEnded := rfl
  have hhazard (i : Instr) : State.hazard { s with mem := m } i = s.hazard i := rfl
  simp only [step, splitStep, hfetch, hended, hhazard]
  cases s.runEnded with
  | true => exact rfl
  | false =>
    cases s.fetch with
    | error f => exact rfl
    | ok w =>
      simp only [Bool.false_eq_true, if_false]
      cases decode w with
      | error e => exact rfl
      | ok i =>
        simp only
        cases s.hazard i with
        | some f => exact rfl
        | none => exact hexec i

/-! ### Runs -/

section
variable {M : Host.Core} {σ σ' : M.State}

theorem coreRun_of_next (h : M.step σ = .next σ') (k : Nat) : M.run (k + 1) σ = M.run k σ' := by
  rw [Host.Core.run, h]

theorem coreRun_of_fault {r : M.Fault} (h : M.step σ = .fault r) (k : Nat) : M.run (k + 1) σ = .fault r := by
  rw [Host.Core.run, h]

theorem coreRun_of_refused {r : M.Refusal} (h : M.step σ = .refused r) (k : Nat) : M.run (k + 1) σ = .refused r := by
  rw [Host.Core.run, h]

end

/-- Settles O52: by induction on the number of steps; no step changes the program, so the separate memory goes on
holding it. -/
theorem oneMemoryOrTwo : Obligations.OneMemoryOrTwo := by
  intro k
  induction k with
  | zero => exact fun s s' program h _ => h
  | succ k ih =>
    intro s s' program h hp
    have hstep := step_endAlike h hp
    rw [splitRun]
    cases hs : step s <;> cases hs' : splitStep program s' <;> rw [hs, hs'] at hstep
    case next.next t t' =>
      obtain ⟨hparams, htext⟩ := stepKeepsParametersAndProgram s t hs
      have hp' : HoldsText program t := fun a ha => by
        rw [hparams] at ha
        rw [hp a ha, htext a ha]
      exact (coreRun_of_next (M := Sys2Proof.core) hs k).symm ▸ ih t t' program hstep hp'
    case fault.fault => exact (coreRun_of_fault (M := Sys2Proof.core) hs k).symm ▸ hstep
    case refused.refused => exact (coreRun_of_refused (M := Sys2Proof.core) hs k).symm ▸ hstep
    all_goals exact hstep.elim

end Sys2Proof.Machine
end

section
/-! SUPPORT. The results of the register instructions (40_arithmetic.md, 41_logical.md, 42_shift.md, 43_compare.md,
47_lui_move.md), each from its word: what is computed, in plain arithmetic, within a frame that is shared. -/

namespace Sys2Proof.Machine

variable {s t u : State} {i : Instr} {rs rt rd : Reg} {imm : Imm} {P : State → Prop}

/-! ### The words of the I-format and the J-format (R52, R53) -/

theorem iWord_eq_encodeI (op : BitVec 6) (rs rt : Reg) (imm : Imm) :
    iWord op.toNat rs rt imm = encodeI op rs rt imm := by
  rw [iWord, ← toNat_encodeI, BitVec.ofNat_toNat, BitVec.setWidth_eq]

theorem jWord_eq_encodeJ (op : BitVec 6) (target : Target) : jWord op.toNat target = encodeJ op target := by
  rw [jWord, ← toNat_encodeJ, BitVec.ofNat_toNat, BitVec.setWidth_eq]

/-- `executes_rWord` for the I-format. -/
theorem executes_iWord (op : BitVec 6) (hw : encode i = encodeI op rs rt imm) (ht : exec i s = .next t) (hP : P t) :
    Executes (iWord op.toNat rs rt imm) i s P := by
  refine ⟨?_, t, ht, hP⟩
  rw [iWord_eq_encodeI, ← hw, decode_encode]

/-- `executes_rWord` for the J-format. -/
theorem executes_jWord (op : BitVec 6) {target : Target} (hw : encode i = encodeJ op target) (ht : exec i s = .next t)
    (hP : P t) : Executes (jWord op.toNat target) i s P := by
  refine ⟨?_, t, ht, hP⟩
  rw [jWord_eq_encodeJ, ← hw, decode_encode]

/-! ### Register writes and ends -/

/-- Writing a register sets it, whatever the end. -/
theorem sets_finish_writeReg (s : State) (rd : Reg) (v n : Word) (d : Bool) (l : Option Reg) (g : Fin 3) :
    Sets s ((s.writeReg rd v).finish n d l g) rd v where
  dest := by simp [State.readReg_writeReg, State.hardwired]
  frame := (s.writeReg_frame rd v).finish ..
  draws := by simp

/-- The end of an instruction is its control state. -/
theorem control_finish (h : u.npc = s.npc) (n : Word) (d : Bool) (l : Option Reg) (g : Fin 3) :
    Control s (u.finish n d l g) n d l g.val :=
  ⟨h, rfl, rfl, rfl, rfl⟩

/-- Settles O32: MFHI and MFLO write a register and end with a full guard. -/
theorem movesFromHiAndLo : Obligations.MovesFromHiAndLo := by
  refine fun s rd => ⟨executes_rWord 16 rfl rfl ?_, executes_rWord 18 rfl rfl ?_⟩
  all_goals
    rw [State.afterMove_writeReg]
    exact ⟨sets_finish_writeReg .., control_finish (by simp) ..⟩

/-- Settles O7: what a register reads after a write, and the overflow of ADD, which does not look at its destination. -/
theorem registerZero : Obligations.RegisterZero := by
  refine fun s v => ⟨fun hz => ?_, fun hz => ?_, fun r q hr => ?_, fun rs rt hfit => ?_⟩
  · have hwired : s.hardwired 0 = true := State.hardwired_eq_true.mpr ⟨hz, rfl⟩
    exact ⟨State.readReg_of_hardwired hwired, fun r => by rw [State.writeReg, if_pos hwired]⟩
  · have hwired : ¬ s.hardwired 0 = true := by simp [State.hardwired, hz]
    refine ⟨?_, fun r hr => ?_⟩
    · rw [State.readReg_writeReg, if_pos rfl, if_neg hwired]
    · rw [State.readReg_writeReg, if_neg hr]
  · have hwired : ¬ s.hardwired r = true := fun h => hr (State.hardwired_eq_true.mp h).2
    rw [State.readReg_writeReg, if_neg hwired]
  · exact ⟨_, exec_of_not_fitsWord rfl hfit, s.takeTrap_traps .overflow⟩

/-! ### Sums and differences (R100 to R105, R110) -/

theorem add_signExtended_eq_ofInt_toInt (a : Word) (imm : Imm) :
    a + signExtended imm = BitVec.ofInt 32 (a.toInt + imm.toInt) := by
  rw [add_eq_ofInt_toInt, toInt_signExtended]

/-- Settles O22: sums and differences of words are the low bits of the exact ones. -/
theorem wrappingArithmetic : Obligations.WrappingArithmetic := by
  refine fun s rd rs rt imm => ⟨executes_rWord 33 rfl rfl (computes_sequential_writeReg ..),
    executes_iWord 9 rfl rfl ?_, executes_rWord 35 rfl rfl ?_⟩
  · rw [← add_signExtended_eq_ofInt_toInt]
    exact computes_sequential_writeReg ..
  · rw [← sub_eq_ofInt_toInt]
    exact computes_sequential_writeReg ..

/-- Settles O17: where the exact result fits, the trapping forms do as the wrapping ones; where not, they trap. -/
theorem trappingArithmetic : Obligations.TrappingArithmetic := by
  intro s rd rs rt imm
  refine ⟨fun h => executes_rWord 32 rfl (exec_add_eq_addu h) ?_,
    fun h => executes_rWord 32 rfl (exec_of_not_fitsWord rfl h) (s.takeTrap_traps _),
    fun h => executes_iWord 8 rfl (exec_addi_eq_addiu h) ?_,
    fun h => executes_iWord 8 rfl (exec_of_not_fitsWord rfl h) (s.takeTrap_traps _),
    fun h => executes_rWord 34 rfl (exec_sub_eq_subu h) ?_,
    fun h => executes_rWord 34 rfl (exec_of_not_fitsWord rfl h) (s.takeTrap_traps _)⟩
  · rw [← add_eq_ofInt_toInt]
    exact computes_sequential_writeReg ..
  · rw [← add_signExtended_eq_ofInt_toInt]
    exact computes_sequential_writeReg ..
  · rw [← sub_eq_ofInt_toInt]
    exact computes_sequential_writeReg ..

/-- The overflow test on 33 bits is the range test, for every result that fits those (R100). -/
theorem overflows_ofInt_iff {z : Int} (hlo : -2 ^ 32 ≤ z) (hhi : z < 2 ^ 32) :
    overflows (BitVec.ofInt 33 z) = true ↔ ¬ FitsWord z := by
  constructor
  · intro h hfit
    rw [ofInt_eq_signExtend_of_fitsWord hfit, overflows_signExtend] at h
    cases h
  · intro hfit
    by_contra h
    have := fitsWord_toInt_of_overflows_eq_false (Bool.eq_false_iff.mpr h)
    rw [BitVec.toInt_ofInt_eq_self (by decide) hlo hhi] at this
    exact hfit this

section
variable (a b : Word)

theorem overflows_wideSum_iff : overflows (wideSum a b) = true ↔ ¬ FitsWord (a.toInt + b.toInt) := by
  have := a.le_toInt
  have := a.toInt_lt
  have := b.le_toInt
  have := b.toInt_lt
  rw [show wideSum a b = BitVec.ofInt 33 (a.toInt + b.toInt) by rw [BitVec.ofInt_add]; rfl]
  exact overflows_ofInt_iff (by omega) (by omega)

theorem overflows_wideDifference_iff : overflows (wideDifference a b) = true ↔ ¬ FitsWord (a.toInt - b.toInt) := by
  have := a.le_toInt
  have := a.toInt_lt
  have := b.le_toInt
  have := b.toInt_lt
  rw [show wideDifference a b = BitVec.ofInt 33 (a.toInt - b.toInt) by rw [ofInt_sub]; rfl]
  exact overflows_ofInt_iff (by omega) (by omega)

/-- The range test is the library's, which the sign rule decides. -/
theorem not_fitsWord_iff (z : Int) : ¬ FitsWord z ↔ (decide (z ≥ 2 ^ 31) || decide (z < -2 ^ 31)) = true := by
  rw [FitsWord, Bool.or_eq_true, decide_eq_true_iff, decide_eq_true_iff]
  omega

theorem not_fitsWord_add_iff : ¬ FitsWord (a.toInt + b.toInt) ↔ a.msb = b.msb ∧ (a + b).msb ≠ a.msb := by
  refine (not_fitsWord_iff _).trans ?_
  rw [show (decide _ || decide _) = a.saddOverflow b from rfl, BitVec.saddOverflow_eq]
  simp

theorem not_fitsWord_sub_iff : ¬ FitsWord (a.toInt - b.toInt) ↔ a.msb ≠ b.msb ∧ (a - b).msb = b.msb := by
  refine (not_fitsWord_iff _).trans ?_
  rw [show (decide _ || decide _) = a.ssubOverflow b from rfl, BitVec.ssubOverflow_eq]
  cases a.msb <;> cases b.msb <;> simp

end

/-- Settles O18: each of the two tests is the range test, which decides whether ADD, ADDI and SUB trap. -/
theorem overflowTest : Obligations.OverflowTest := by
  refine ⟨fun a b => ⟨overflows_wideSum_iff a b, (overflows_wideSum_iff a b).trans (not_fitsWord_add_iff a b)⟩,
    fun a b => ⟨overflows_wideDifference_iff a b,
      (overflows_wideDifference_iff a b).trans (not_fitsWord_sub_iff a b)⟩, fun s i z hz => ?_⟩
  by_cases hfit : FitsWord z
  · obtain ⟨dest, v, hexec⟩ := exec_of_fitsWord hz hfit
    exact ⟨_, hexec, fun h => absurd hfit h, fun _ => ⟨by simp, advances_sequential (by simp) (by simp)⟩⟩
  · exact ⟨_, exec_of_not_fitsWord hz hfit, fun _ => s.takeTrap_traps .overflow, fun h => absurd h hfit⟩

/-! ### Quotients (R108, R109) -/

/-- The remainder of a truncated division has the sign of the dividend, or is 0 (D18). -/
theorem mul_modS_nonneg (n d : Int) : 0 ≤ n * modS n d := by
  rw [modS_eq_tmod]
  obtain hn | hn := le_total 0 n
  · exact mul_nonneg hn (Int.tmod_nonneg d hn)
  · have := Int.tmod_nonneg d (neg_nonneg.mpr hn)
    rw [Int.neg_tmod] at this
    exact mul_nonneg_of_nonpos_of_nonpos hn (neg_nonneg.mp this)

theorem frame_sequential_writeDraws (s : State) :
    Frame s s.writeDraws.sequential [] true [] ∧ Advances s s.writeDraws.sequential :=
  ⟨s.writeDraws_frame.finish .., advances_sequential rfl rfl⟩

/-- DIV where there is a quotient that fits a word, and where there is none. -/
theorem exec_div_of_quotient (hb : (s.readReg rt).toInt ≠ 0)
    (hab : ¬ ((s.readReg rs).toInt = -2 ^ 31 ∧ (s.readReg rt).toInt = -1)) :
    exec (.div rs rt) s = .next (s.writeHiLo (BitVec.ofInt 32 (modS (s.readReg rs).toInt (s.readReg rt).toInt))
      (BitVec.ofInt 32 (divS (s.readReg rs).toInt (s.readReg rt).toInt))).sequential :=
  (if_neg hb).trans (if_neg hab)

theorem exec_div_of_corner
    (h : (s.readReg rt).toInt = 0 ∨ ((s.readReg rs).toInt = -2 ^ 31 ∧ (s.readReg rt).toInt = -1)) :
    exec (.div rs rt) s = .next s.writeDraws.sequential := by
  obtain h | h := h
  · exact if_pos h
  · have hb : (s.readReg rt).toInt ≠ 0 := by omega
    exact (if_neg hb).trans (if_pos h)

/-- Settles O24: truncated division where the quotient is a word, draws where there is none. -/
theorem signedDivision : Obligations.SignedDivision := by
  rintro s rs rt _ _ rfl rfl
  refine ⟨fun hb hab => executes_rWord 26 rfl (exec_div_of_quotient hb hab) ?_,
    fun h => executes_rWord 26 rfl (exec_div_of_corner h) ?_⟩
  · obtain ⟨hframe, hadvances⟩ := frame_sequential_writeHiLo s
      (BitVec.ofInt 32 (modS (s.readReg rs).toInt (s.readReg rt).toInt))
      (BitVec.ofInt 32 (divS (s.readReg rs).toInt (s.readReg rt).toInt))
    refine ⟨?_, ?_, ?_, hframe, hadvances, rfl⟩
    all_goals simp only [State.sequential_eq, State.finish_hi, State.finish_lo, State.writeHiLo_hi, State.writeHiLo_lo,
      toInt_ofInt_modS _ _ hb, toInt_ofInt_divS _ _ hb hab]
    · exact (mul_divS_add_modS ..).symm
    · exact abs_modS_lt _ hb
    · exact mul_modS_nonneg ..
  · exact ⟨rfl, rfl, rfl, frame_sequential_writeDraws s⟩

/-- Settles O25: the library's division of natural numbers, whose results are words; draws for a zero divisor. -/
theorem unsignedDivision : Obligations.UnsignedDivision := by
  rintro s rs rt _ _ rfl rfl
  refine ⟨fun hb => ?_, fun hb => executes_rWord 27 rfl (if_pos hb) ⟨rfl, rfl, rfl, frame_sequential_writeDraws s⟩⟩
  obtain ⟨t, ht, hlo, hhi⟩ := exec_divu_quotient s rs rt hb
  refine executes_rWord 27 rfl ht ⟨?_, ?_, ?_⟩
  · rw [hlo, hhi, Nat.div_add_mod]
  · rw [hhi]
    exact Nat.mod_lt _ (Nat.pos_of_ne_zero hb)
  · cases (if_neg hb).symm.trans ht
    obtain ⟨hframe, hadvances⟩ := frame_sequential_writeHiLo s _ _
    exact ⟨hframe, hadvances, rfl⟩

/-! ### Logical immediates (R122, R124, R126) -/

theorem getLsbD_zeroExtended (imm : Imm) {k : Nat} (hk : k < 32) :
    (zeroExtended imm).getLsbD k = if k < 16 then imm.getLsbD k else false := by
  rw [zeroExtended, BitVec.getLsbD_setWidth]
  split
  · simp [hk]
  · simp [BitVec.getLsbD_of_ge imm k (by omega)]

/-- Settles O27: the operation of the model's word type with an immediate whose upper bits are 0. -/
theorem logicalImmediateForms : Obligations.LogicalImmediateForms := by
  refine fun s rt rs imm => ⟨executes_iWord 12 rfl rfl ⟨_, computes_sequential_writeReg .., fun k hk => ?_⟩,
    executes_iWord 13 rfl rfl ⟨_, computes_sequential_writeReg .., fun k hk => ?_⟩,
    executes_iWord 14 rfl rfl ⟨_, computes_sequential_writeReg .., fun k hk => ?_⟩⟩
  · rw [BitVec.getLsbD_and, getLsbD_zeroExtended imm hk]
    split <;> simp
  · rw [BitVec.getLsbD_or, getLsbD_zeroExtended imm hk]
    split <;> simp
  · rw [BitVec.getLsbD_xor, getLsbD_zeroExtended imm hk]
    split <;> simp

/-! ### Constant shifts (R131 to R133) -/

/-- Settles O28: the shifts of the model's word type in plain arithmetic. -/
theorem constantShifts : Obligations.ConstantShifts := by
  intro s rd rt shamt
  rw [← shiftLeft_eq_ofNat_mul, ← ushiftRight_eq_ofNat_div, ← sshiftRight_eq_ofInt_fdiv]
  exact ⟨executes_rWord 0 rfl rfl (computes_sequential_writeReg ..),
    executes_rWord 2 rfl rfl (computes_sequential_writeReg ..),
    executes_rWord 3 rfl rfl (computes_sequential_writeReg ..)⟩

/-! ### Comparisons (R141 to R144) -/

theorem truthWord_decide (p : Prop) [Decidable p] : truthWord (decide p) = if p then 1 else 0 := by
  by_cases hp : p <;> simp [truthWord, hp]

/-- The sign-extended immediate read as unsigned (R144). -/
theorem toNat_signExtended (imm : Imm) :
    (signExtended imm).toNat = if imm.toNat < 0x8000 then imm.toNat else imm.toNat + 0xFFFF0000 := by
  have := imm.isLt
  have hlow : (imm.setWidth 32).toNat = imm.toNat := BitVec.toNat_setWidth_of_le (by decide)
  rw [signExtended, BitVec.toNat_signExtend, hlow, BitVec.msb_eq_decide]
  simp only [decide_eq_true_iff]
  split <;> split <;> omega

/-- Settles O30: the word a comparison writes is 1 or 0 by the comparison of the readings it names. -/
theorem comparisons : Obligations.Comparisons := by
  intro s rd rs rt imm
  simp only [← toNat_signExtended, ← toInt_signExtended, ← truthWord_decide]
  exact ⟨executes_rWord 42 rfl rfl (computes_sequential_writeReg ..),
    executes_rWord 43 rfl rfl (computes_sequential_writeReg ..),
    executes_iWord 10 rfl rfl (computes_sequential_writeReg ..),
    executes_iWord 11 rfl rfl (computes_sequential_writeReg ..)⟩

/-! ### LUI (R180) -/

theorem upperImmediate_eq (imm : Imm) : upperImmediate imm = BitVec.ofNat 32 (imm.toNat * 2 ^ 16) := by
  apply BitVec.eq_of_toNat_eq
  refine (toNat_append_eq imm 0#16).trans ?_
  have := imm.isLt
  rw [BitVec.toNat_zero, BitVec.toNat_ofNat]
  omega

/-- Settles O31: the immediate put before 16 zero bits. -/
theorem loadUpperImmediate : Obligations.LoadUpperImmediate := by
  intro s rt imm
  rw [← upperImmediate_eq]
  exact executes_iWord 15 rfl rfl (computes_sequential_writeReg ..)

end Sys2Proof.Machine
end

section
/-! SUPPORT. Loads, stores and the canonical form of memory (20_memory.md, 44_load_store.md): what each of the four
answers where its access is allowed, and which fault an instruction or a step can answer. -/

namespace Sys2Proof.Machine

variable {s t u : State} {i : Instr} {f : Fault} {p : Params} {a v w : Word} {rt base : Reg} {offset : Imm}

/-! ### Addresses and bytes in plain arithmetic (R31, R33) -/

/-- Settles O33: the sum of words is the sum of their readings, modulo 2^32. -/
theorem effectiveAddress : Obligations.EffectiveAddress := by
  intro s base offset
  rw [State.effectiveAddress, BitVec.add_comm, add_signExtended_eq_ofInt_toNat, BitVec.toNat_ofInt,
    Int.toNat_of_nonneg (Int.emod_nonneg _ (by decide))]
  rfl

theorem byteOfWord_eq_ofNat (v : Word) (k : Nat) : byteOfWord v k = BitVec.ofNat 8 (v.toNat / 2 ^ (24 - 8 * k)) := by
  rw [← Nat.shiftRight_eq_div_pow]
  rfl

theorem toNat_wordOfBytes (b0 b1 b2 b3 : Byte) : (wordOfBytes b0 b1 b2 b3).toNat =
    b0.toNat * 2 ^ 24 + b1.toNat * 2 ^ 16 + b2.toNat * 2 ^ 8 + b3.toNat := by
  refine (toNat_append_eq (b0 ++ b1 ++ b2) b3).trans ?_
  simp only [toNat_append_eq]
  omega

theorem wordOfBytes_eq_ofNat (b0 b1 b2 b3 : Byte) : wordOfBytes b0 b1 b2 b3 =
    BitVec.ofNat 32 (b0.toNat * 2 ^ 24 + b1.toNat * 2 ^ 16 + b2.toNat * 2 ^ 8 + b3.toNat) := by
  rw [← toNat_wordOfBytes, BitVec.ofNat_toNat, BitVec.setWidth_eq]

/-- The four bytes of a written word. -/
theorem Memory.read_writeWord_add (m : Memory) (n : Nat) (v : Word) {k : Nat} (hk : k < 4) :
    (m.writeWord n v).read (n + k) = byteOfWord v k := by
  rw [Memory.read_writeWord]
  split_ifs with h0 h1 h2 h3
  · rw [show k = 0 by omega]
  · rw [show k = 1 by omega]
  · rw [show k = 2 by omega]
  · rw [show k = 3 by omega]
  · omega

/-- Four bytes written to the places of a word are that word (R34). -/
theorem Memory.readWord_write_four (m : Memory) (n : Nat) (b0 b1 b2 b3 : Byte) :
    ((((m.write n b0).write (n + 1) b1).write (n + 2) b2).write (n + 3) b3).readWord n = wordOfBytes b0 b1 b2 b3 := by
  simp [Memory.readWord, Memory.read_write]

/-- No sum of a word's address and a byte's place wraps. -/
theorem toNat_add_of_aligned (ha : Aligned a) {k : Nat} (hk : k < 4) : (a + BitVec.ofNat 32 k).toNat = a.toNat + k := by
  have := a.isLt
  unfold Aligned at ha
  rw [BitVec.toNat_add, BitVec.toNat_ofNat]
  omega

/-! ### What each load and store answers where its access is allowed -/

theorem exec_lb_of_dataFault_eq_none (h : dataFault s.params (s.effectiveAddress base offset) = none) :
    exec (.lb rt offset base) s = .next
      ((s.writeReg rt ((s.mem.read (s.effectiveAddress base offset).toNat).signExtend 32)).afterLoad rt) := by
  simp only [exec, execLb, State.loadByte, h]

theorem exec_lw_of_dataFault_eq_none (h : dataFault s.params (s.effectiveAddress base offset) = none) :
    exec (.lw rt offset base) s = .next
      ((s.writeReg rt (s.mem.readWord (wordAddress (s.effectiveAddress base offset)).toNat)).afterLoad rt) := by
  simp only [exec, execLw, State.loadWord, h]

/-- A store answers the stored state, gone on in sequence. -/
theorem exec_sb_of_storeByte
    (h : s.storeByte (s.effectiveAddress base offset) ((s.readReg rt).extractLsb' 0 8) = .ok u) :
    exec (.sb rt offset base) s = .next u.sequential := by
  simp only [exec, execSb, h]

theorem exec_sw_of_storeWord (h : s.storeWord (s.effectiveAddress base offset) (s.readReg rt) = .ok u) :
    exec (.sw rt offset base) s = .next u.sequential := by
  simp only [exec, execSw, h]

/-- Settles O34: a load writes a register and ends with that register in `LDREG`. -/
theorem loadResults : Obligations.LoadResults := by
  rintro s rt base offset _ _ rfl rfl hd ht
  have hf := dataFault_eq_none.mpr ⟨hd, ht⟩
  refine ⟨executes_iWord 32 rfl (exec_lb_of_dataFault_eq_none hf) ?_,
    executes_iWord 35 rfl (exec_lw_of_dataFault_eq_none hf) ?_⟩
  · rw [State.afterLoad_writeReg]
    exact ⟨sets_finish_writeReg .., control_finish (by simp) ..⟩
  · rw [State.afterLoad_writeReg, wordAddress_toNat, Memory.readWord, wordOfBytes_eq_ofNat]
    exact ⟨sets_finish_writeReg .., control_finish (by simp) ..⟩

/-- Settles O35: a store changes the bytes of its frame, and the written bytes are the register's. -/
theorem storeResults : Obligations.StoreResults := by
  rintro s rt base offset _ rfl hd ht
  have hf := dataFault_eq_none.mpr ⟨hd, ht⟩
  have hsb := State.storeByte_eq_ok (b := (s.readReg rt).extractLsb' 0 8) |>.mpr ⟨hf, rfl⟩
  have hsw := State.storeWord_eq_ok (v := s.readReg rt) |>.mpr ⟨hf, rfl⟩
  refine ⟨executes_iWord 40 rfl (exec_sb_of_storeByte hsb)
      ⟨?_, (State.storeByte_frame hsb).finish .., advances_sequential rfl rfl⟩,
    executes_iWord 43 rfl (exec_sw_of_storeWord hsw) ⟨fun k hk => ?_, ?_, advances_sequential rfl rfl⟩⟩
  · exact (Memory.read_write ..).trans (if_pos rfl)
  · rw [← wordAddress_toNat, ← byteOfWord_eq_ofNat]
    exact Memory.read_writeWord_add _ _ _ hk
  · rw [← wordAddress_toNat]
    exact (State.storeWord_frame hsw).finish ..

/-! ### The faults an instruction and a step can answer (R213) -/

/-- An instruction faults only by the check of its data access: the converse of `exec_of_dataFault`. -/
theorem dataFault_of_exec_fault (h : exec i s = .fault f) :
    ∃ a, dataAddress s i = some a ∧ dataFault s.params a = some f := by
  cases ha : dataAddress s i with
  | some a =>
    refine ⟨a, rfl, ?_⟩
    cases hf : dataFault s.params a with
    | none =>
      obtain ⟨t, ht⟩ := exec_next_of_dataFault_eq_none ha hf
      cases h.symm.trans ht
    | some g =>
      cases h.symm.trans (exec_of_dataFault ha hf)
      rfl
  | none =>
    cases i with
    | lb | lw | sb | sw => cases ha
    | add | addi | sub =>
      simp only [exec, execAdd, execAddi, execSub, State.trappingResult] at h
      split at h <;> cases h
    | div | divu =>
      simp only [exec, execDiv, execDivu] at h
      split_ifs at h
    | _ => cases h

theorem State.fetch_eq_error : s.fetch = .error f ↔ fetchFault s.params s.pc = some f := by
  unfold State.fetch
  cases fetchFault s.params s.pc <;> simp

/-- The check of a fetch answers one of three faults, `unmappedAccess` only outside `MEM_DOMAIN`. -/
theorem fetchFault_cases (h : fetchFault p a = some f) :
    f = .unalignedFetch ∨ (f = .unmappedAccess ∧ inDomain p a = false) ∨ f = .textAccess := by
  unfold fetchFault at h
  split_ifs at h with _ hd <;> cases h
  · exact .inl rfl
  · exact .inr (.inl ⟨rfl, by simpa using hd⟩)
  · exact .inr (.inr rfl)

/-- The check of a data access answers one of two faults. -/
theorem dataFault_cases (h : dataFault p a = some f) : f = .unmappedAccess ∨ f = .textAccess := by
  unfold dataFault at h
  split_ifs at h <;> cases h
  · exact .inl rfl
  · exact .inr rfl

theorem State.hazard_cases (h : s.hazard i = some f) :
    (f = .branchInDelaySlot ∧ s.delaySlotHazard i = true) ∨ (f = .loadUseHazard ∧ s.loadHazard i = true) ∨
      (f = .hiLoHazard ∧ s.guardHazard i = true) := by
  unfold State.hazard at h
  split_ifs at h with hd hl hg <;> cases h
  · exact .inl ⟨rfl, hd⟩
  · exact .inr (.inl ⟨rfl, hl⟩)
  · exact .inr (.inr ⟨rfl, hg⟩)

/-- Settles O36: the checks come first, and `unmappedAccess` is no fault of anything else. -/
theorem unbackedAccessFaults : Obligations.UnbackedAccessFaults := by
  refine ⟨fun s hr ha hd => step_of_fetchFault hr (fetchFault_eq_unmapped ha hd),
    fun s i a ha hd => exec_of_dataFault ha (dataFault_eq_unmapped.mpr hd), fun s hall h => ?_⟩
  have hdomain (a : Word) : inDomain s.params a ≠ false := by simp [hall a]
  obtain ⟨-, hf | ⟨w, -, ⟨hf, -⟩ | ⟨i, -, hz | ⟨-, hexec⟩⟩⟩⟩ := step_eq_fault h
  · obtain hf | ⟨-, hd⟩ | hf := fetchFault_cases (State.fetch_eq_error.mp hf)
    · cases hf
    · exact hdomain _ hd
    · cases hf
  · cases hf
  · obtain ⟨hf, -⟩ | ⟨hf, -⟩ | ⟨hf, -⟩ := State.hazard_cases hz <;> cases hf
  · obtain ⟨a, -, hf⟩ := dataFault_of_exec_fault hexec
    exact hdomain a (dataFault_eq_unmapped.mp hf)

/-- Settles O37: `textAccess` is the answer of the check of a data access, and of nothing else in an instruction. -/
theorem programAccessFaults : Obligations.ProgramAccessFaults := by
  intro s i
  constructor
  · intro h
    obtain ⟨a, ha, hf⟩ := dataFault_of_exec_fault h
    exact ⟨a, ha, (dataFault_eq_text.mp hf).2⟩
  · rintro ⟨a, ha, ht⟩
    exact exec_of_dataFault ha (dataFault_eq_text.mpr ⟨inDomain_of_inText ht, ht⟩)

/-! ### Accesses of different widths (R34) and one after another (R41) -/

/-- The check of a data access is that of the word that contains it. -/
theorem dataFault_add_of_aligned (ha : Aligned a) {k : Nat} (hk : k < 4) :
    dataFault p (a + BitVec.ofNat 32 k) = dataFault p a := by
  refine dataFault_congr ?_
  rw [toNat_add_of_aligned ha hk]
  unfold Aligned at ha
  omega

/-- Settles O39: the bytes of a written word, the word of four written bytes, and the upper byte of a fetched word. -/
theorem mixedWidths : Obligations.MixedWidths := by
  refine ⟨fun s t a v k ha hk h => ?_, fun s t0 t1 t2 t3 a b0 b1 b2 b3 ha h0 h1 h2 h3 => ?_, fun s w h => ?_⟩
  · obtain ⟨hf, rfl⟩ := State.storeWord_eq_ok.mp h
    refine State.loadByte_eq_ok.mpr ⟨(dataFault_add_of_aligned ha hk).trans hf, ?_⟩
    rw [toNat_add_of_aligned ha hk, wordAddress_of_aligned ha, ← byteOfWord_eq_ofNat]
    exact (Memory.read_writeWord_add _ _ _ hk).symm
  · obtain ⟨hf, rfl⟩ := State.storeByte_eq_ok.mp h0
    obtain ⟨-, rfl⟩ := State.storeByte_eq_ok.mp h1
    obtain ⟨-, rfl⟩ := State.storeByte_eq_ok.mp h2
    obtain ⟨-, rfl⟩ := State.storeByte_eq_ok.mp h3
    refine State.loadWord_eq_ok.mpr ⟨hf, ?_⟩
    have e1 : (a + 1).toNat = a.toNat + 1 := toNat_add_of_aligned ha (k := 1) (by decide)
    have e2 : (a + 2).toNat = a.toNat + 2 := toNat_add_of_aligned ha (k := 2) (by decide)
    have e3 : (a + 3).toNat = a.toNat + 3 := toNat_add_of_aligned ha (k := 3) (by decide)
    simp only [wordAddress_of_aligned ha, e1, e2, e3]
    exact (Memory.readWord_write_four ..).symm
  · obtain ⟨-, rfl⟩ := State.fetch_eq_ok.mp h
    have := (s.mem.read s.pc.toNat).isLt
    have := (s.mem.read (s.pc.toNat + 1)).isLt
    have := (s.mem.read (s.pc.toNat + 2)).isLt
    have := (s.mem.read (s.pc.toNat + 3)).isLt
    rw [bits, Memory.readWord, toNat_wordOfBytes]
    omega

/-- The low byte of a word, sign-extended, in plain arithmetic. -/
theorem signExtend_lowByte (v : Word) : (v.extractLsb' 0 8).signExtend 32 = BitVec.ofInt 32 (v.toInt.bmod (2 ^ 8)) := by
  have hlow : (v.extractLsb' 0 8).toInt = v.toInt.bmod (2 ^ 8) := by
    rw [BitVec.toInt_eq_toNat_bmod, BitVec.toInt_eq_toNat_bmod v, BitVec.extractLsb'_toNat]
    rw [Int.bmod_bmod_of_dvd (by decide), Nat.shiftRight_zero, Int.natCast_emod]
    exact Int.emod_bmod ..
  rw [BitVec.signExtend, hlow]

theorem exec_sb_cases (h : exec (.sb rt offset base) s = .next t) :
    ∃ u, s.storeByte (s.effectiveAddress base offset) ((s.readReg rt).extractLsb' 0 8) = .ok u ∧ t = u.sequential := by
  simp only [exec, execSb] at h
  split at h <;> cases h
  exact ⟨_, ‹_›, rfl⟩

/-- Settles O40: the load's access is allowed where the store's was, and reads what was written. -/
theorem storeThenLoad : Obligations.StoreThenLoad := by
  refine fun s t rt base rt' base' offset offset' hwired => ⟨fun h hword => ?_, fun h hbyte => ?_⟩
  · have hmem := exec_sw_readWord h
    obtain ⟨u, hu, rfl⟩ := exec_sw_cases h
    obtain ⟨hf, rfl⟩ := State.storeWord_eq_ok.mp hu
    refine ⟨_, exec_lw_of_dataFault_eq_none ((dataFault_congr hword).trans hf), ?_⟩
    rw [wordAddress_congr hword, hmem, State.afterLoad_writeReg, State.readReg_finish, State.readReg_writeReg,
      if_pos rfl]
    exact if_neg (Bool.eq_false_iff.mp hwired)
  · obtain ⟨u, hu, rfl⟩ := exec_sb_cases h
    obtain ⟨hf, rfl⟩ := State.storeByte_eq_ok.mp hu
    refine ⟨_, exec_lb_of_dataFault_eq_none (hbyte ▸ hf), ?_⟩
    rw [hbyte, State.afterLoad_writeReg, State.readReg_finish, State.readReg_writeReg, if_pos rfl, State.sequential_eq,
      State.finish_mem, Memory.read_write, if_pos rfl, signExtend_lowByte]
    exact if_neg (Bool.eq_false_iff.mp hwired)

/-! ### The canonical form of memory -/

/-- Below every listed address nothing is listed. -/
theorem readCells_of_forall_lt {cs : List Host.Cell} {n : Nat} (h : ∀ c ∈ cs, n < c.1) :
    readCells cs n = Config.unlistedByte := by
  induction cs with
  | nil => rfl
  | cons c rest ih =>
    rw [readCells, if_neg (h c List.mem_cons_self).ne', ih fun d hd => h d (List.mem_cons_of_mem c hd)]

theorem readCells_cons_self (c : Host.Cell) (rest : List Host.Cell) : readCells (c :: rest) c.1 = c.2 := if_pos rfl

/-- Canonical lists that read alike cannot begin at different addresses. -/
theorem le_of_readCells_eq {c d : Host.Cell} {cs ds : List Host.Cell} (hc : cellsWf (c :: cs) = true)
    (hd : cellsWf (d :: ds) = true) (h : ∀ n, readCells (c :: cs) n = readCells (d :: ds) n) : d.1 ≤ c.1 := by
  by_contra hlt
  obtain ⟨-, hlisted, -, -⟩ := (cellsWf_cons c cs).mp hc
  obtain ⟨-, -, hrest, -⟩ := (cellsWf_cons d ds).mp hd
  refine hlisted ?_
  rw [← readCells_cons_self c cs, h, readCells_of_forall_lt]
  intro e he
  obtain rfl | he := List.mem_cons.mp he
  · omega
  · have := hrest e he
    omega

/-- Canonical lists of cells that read alike are equal: they begin at the same address with the same byte. -/
theorem cells_ext {cs ds : List Host.Cell} (hc : cellsWf cs = true) (hd : cellsWf ds = true)
    (h : ∀ n, readCells cs n = readCells ds n) : cs = ds := by
  induction cs generalizing ds with
  | nil =>
    cases ds with
    | nil => rfl
    | cons d ds =>
      obtain ⟨-, hlisted, -, -⟩ := (cellsWf_cons d ds).mp hd
      exact absurd ((h d.1).trans (readCells_cons_self d ds)).symm hlisted
  | cons c cs ih =>
    obtain ⟨-, hlisted, hcrest, hcs⟩ := (cellsWf_cons c cs).mp hc
    cases ds with
    | nil => exact absurd ((readCells_cons_self c cs).symm.trans (h c.1)) hlisted
    | cons d ds =>
      obtain ⟨-, -, hdrest, hds⟩ := (cellsWf_cons d ds).mp hd
      have haddr : c.1 = d.1 := le_antisymm (le_of_readCells_eq hd hc fun n => (h n).symm) (le_of_readCells_eq hc hd h)
      have hbyte : c.2 = d.2 := by rw [← readCells_cons_self c cs, h, haddr, readCells_cons_self]
      have hrest (n : Nat) : readCells cs n = readCells ds n := by
        by_cases hn : c.1 = n
        · subst hn
          rw [readCells_of_forall_lt hcrest, haddr, readCells_of_forall_lt hdrest]
        · have := h n
          rwa [readCells, readCells, if_neg hn, if_neg (haddr ▸ hn)] at this
      rw [Prod.ext haddr hbyte, ih hcs hds hrest]

/-- Settles O41: a canonical memory is its list of cells. -/
theorem equalMemoriesAreEqualData : Obligations.EqualMemoriesAreEqualData := fun _ _ hm hm' h =>
  congrArg Memory.mk (cells_ext hm hm' h)

end Sys2Proof.Machine
end

section
/-! SUPPORT. Branches and jumps from their words (45_branch.md, 46_jump.md), the loaded word (R231), and the hazards of
the steps that follow an instruction (70_reset_and_hazards.md). -/

namespace Sys2Proof.Machine

variable {s t u v : State} {i j : Instr} {w w' : Word} {r : Reg} {f : Fault}

/-! ### Branches and jumps (R160 to R174) -/

/-- Settles O42: a branch writes nothing and ends before its delay slot, with the target in plain arithmetic. -/
theorem branchResults : Obligations.BranchResults := by
  rintro s rt rs offset _ rfl
  rw [← State.branchTarget_eq]
  refine ⟨executes_iWord 4 rfl rfl ⟨(Frame.refl s).finish .., ?_⟩,
    executes_iWord 5 rfl rfl ⟨(Frame.refl s).finish .., ?_⟩⟩
  · rw [State.branch_eq]
    simp only [beq_iff_eq]
    exact control_finish rfl ..
  · rw [State.branch_eq]
    simp only [bne_iff_ne]
    exact control_finish rfl ..

/-- Settles O43: a jump writes its link, if any, and ends before its delay slot, with the destination it read first. -/
theorem jumpResults : Obligations.JumpResults := by
  rintro s target rd rs _ rfl
  rw [← State.jumpTarget_eq]
  refine ⟨executes_jWord 2 rfl rfl ⟨(Frame.refl s).finish .., control_finish rfl ..⟩, executes_jWord 3 rfl rfl ?_,
    executes_rWord 8 rfl rfl ⟨(Frame.refl s).finish .., control_finish rfl ..⟩, executes_rWord 9 rfl rfl ?_⟩
  all_goals
    rw [State.transfer_writeReg]
    exact ⟨sets_finish_writeReg .., control_finish (by simp) ..⟩

/-! ### Loading a word at `pc` (R231, log 32) -/

section
variable (s : State) (w a : Word)

theorem State.withFetchWord_eq : s.withFetchWord 32 w.toNat = s.loadWords s.pc [w] := by
  rw [State.withFetchWord, Nat.mod_eq_of_lt w.isLt, BitVec.ofNat_toNat, BitVec.setWidth_eq]

/-- Loading one word writes the word that contains the address. -/
theorem State.loadWords_singleton_mem : (s.loadWords a [w]).mem = s.mem.writeWord (wordAddress a).toNat w := by
  rw [wordAddress_toNat, Nat.mul_comm]
  rfl

theorem inRange_singleton {n : Nat} {b : Word} : inRange ⟨n, 1⟩ b = true ↔ b.toNat / 4 = n := by
  simp only [inRange, Bool.and_eq_true, decide_eq_true_iff]
  omega

theorem inDomain_loadWords_singleton (b : Word) :
    inDomain (s.loadWords a [w]).params b = true ↔ inDomain s.params b = true ∨ b.toNat / 4 = a.toNat / 4 := by
  rw [← inRange_singleton, or_comm, ← Bool.or_eq_true]
  rfl

theorem inText_loadWords_singleton (b : Word) :
    inText (s.loadWords a [w]).params b = true ↔ inText s.params b = true ∨ b.toNat / 4 = a.toNat / 4 := by
  have hregion : (s.loadWords a [w]).params.textRegion.any (inRange · b) = true ↔
      b.toNat / 4 = a.toNat / 4 ∨ s.params.textRegion.any (inRange · b) = true := by
    rw [← inRange_singleton, ← Bool.or_eq_true]
    rfl
  rw [inText, Bool.and_eq_true, inDomain_loadWords_singleton, hregion, inText, Bool.and_eq_true]
  tauto

end

/-- Settles O13: the loaded word is in the program, at the address the fetch reads; nothing else a step looks at is
changed by the loading. -/
theorem loadedWordRuns : Obligations.LoadedWordRuns := by
  rintro s _ w i rfl ha hr hdec hz
  rw [State.withFetchWord_eq]
  have htext : inText (s.loadWords s.pc [w]).params s.pc = true := (inText_loadWords_singleton ..).mpr (.inr rfl)
  have hfetch : (s.loadWords s.pc [w]).fetch = .ok w := by
    refine State.fetch_eq_ok.mpr ⟨fetchFault_eq_none.mpr ⟨ha, htext⟩, ?_⟩
    rw [State.loadWords_singleton_mem, wordAddress_of_aligned ha]
    exact (Memory.readWord_writeWord ..).symm
  refine ⟨hfetch, step_of_no_hazard ⟨hr, hfetch, hdec⟩ hz, fun _ => rfl, rfl, rfl, rfl, rfl, rfl, rfl, rfl, rfl, rfl,
    fun n hn => ?_, rfl, fun a => ⟨inDomain_loadWords_singleton .., inText_loadWords_singleton ..⟩⟩
  rw [State.loadWords_singleton_mem]
  exact Memory.read_writeWord_of_notMem _ _ hn

/-! ### Hazards in the steps after an instruction (R234, R236, R238) -/

/-- Only the hazard checks of a step answer their faults. -/
theorem hazard_of_step_fault (h : step s = .fault f) (hf : f = .loadUseHazard ∨ f = .hiLoHazard) :
    ∃ w i, Fetches s w i ∧ s.hazard i = some f := by
  obtain ⟨hr, hfetch | ⟨w, hfetch, ⟨rfl, -⟩ | ⟨i, hi, hz | ⟨-, hexec⟩⟩⟩⟩ := step_eq_fault h
  · obtain rfl | ⟨rfl, -⟩ | rfl := fetchFault_cases (State.fetch_eq_error.mp hfetch) <;> simp at hf
  · simp at hf
  · exact ⟨w, i, ⟨hr, hfetch, hi⟩, hz⟩
  · obtain ⟨a, -, ha⟩ := dataFault_of_exec_fault hexec
    obtain rfl | rfl := dataFault_cases ha <;> simp at hf

theorem loadHazard_of_step_fault (h : step s = .fault .loadUseHazard) :
    ∃ w i, Fetches s w i ∧ s.loadHazard i = true := by
  obtain ⟨w, i, hi, hz⟩ := hazard_of_step_fault h (.inl rfl)
  obtain ⟨hf, -⟩ | ⟨-, hl⟩ | ⟨hf, -⟩ := State.hazard_cases hz
  · cases hf
  · exact ⟨w, i, hi, hl⟩
  · cases hf

theorem guardHazard_of_step_fault (h : step s = .fault .hiLoHazard) :
    ∃ w i, Fetches s w i ∧ s.guardHazard i = true := by
  obtain ⟨w, i, hi, hz⟩ := hazard_of_step_fault h (.inr rfl)
  obtain ⟨hf, -⟩ | ⟨hf, -⟩ | ⟨-, hg⟩ := State.hazard_cases hz
  · cases hf
  · cases hf
  · exact ⟨w, i, hi, hg⟩

/-- A step fetches one instruction. -/
theorem Fetches.unique (h : Fetches s w i) (h' : Fetches s w' j) : i = j := by
  cases h.fetched.symm.trans h'.fetched
  cases h.decoded.symm.trans h'.decoded
  rfl

/-- Settles O48: a branch or jump sets `DS`, taken or not. -/
theorem branchInDelaySlotFaults : Obligations.BranchInDelaySlotFaults := by
  intro s u w w' i j hi htransfer hsu hj hjtransfer
  obtain ⟨-, hds, -⟩ := exec_transfer htransfer (exec_of_step hi hsu)
  exact step_of_hazard hj (State.hazard_eq_branchInDelaySlot (State.delaySlotHazard_eq_true.mpr ⟨hds, hjtransfer⟩))

/-- No delay slot, no hazard of one. -/
theorem not_delaySlotHazard (h : s.ds = false) : ¬ s.delaySlotHazard i = true := by
  rw [State.delaySlotHazard_eq_true, h]
  simp

/-- The load-use check, where it is made and a load went before (R236). -/
theorem State.loadHazard_eq_true (hrule : s.params.loadUse = .fault) (hr : s.ldreg = some r) :
    s.loadHazard i = true ↔ (r ∈ readsOf i ∨ r ∈ writesOf i) ∧ s.hardwired r = false := by
  simp [State.loadHazard, hrule, hr]

theorem State.loadHazard_of_none (h : s.ldreg = none) : s.loadHazard i = false := by
  rw [State.loadHazard, h]
  cases s.params.loadUse <;> rfl

/-- LB and LW raise nothing and have no delay slot. -/
theorem not_raises_of_load (hi : loadTarget i = some r) (c : Cause) : ¬ Raises s i c := by
  cases i with
  | lb | lw =>
    rintro (⟨-, z, hz, -⟩ | ⟨-, heq⟩)
    · cases hz
    · cases heq
  | _ => cases hi

theorem isTransfer_of_load (hi : loadTarget i = some r) : isTransfer i = false := by
  cases i with
  | lb | lw => rfl
  | _ => cases hi

/-- A load leaves its target in `LDREG` and no delay slot (R21). -/
theorem exec_load (hi : loadTarget i = some r) (h : exec i s = .next t) : t.ds = false ∧ t.ldreg = some r := by
  obtain ⟨-, -, hds, hldreg, -⟩ := exec_control h (not_raises_of_load hi)
  exact ⟨hds.trans (isTransfer_of_load hi), hldreg.trans hi⟩

/-- Settles O49: a load leaves its target in `LDREG`, which is what the check of the next step looks at. -/
theorem loadUseRule : Obligations.LoadUseRule := by
  constructor
  · intro s u w w' i j r hi htarget hsu hj hrule
    have hexec := exec_of_step hi hsu
    obtain ⟨hds, hldreg⟩ := exec_load htarget hexec
    have hwired : u.hardwired r = s.hardwired r := by rw [State.hardwired, exec_keeps_params hexec, State.hardwired]
    have hhazard := State.loadHazard_eq_true (i := j) hrule hldreg
    rw [hwired] at hhazard
    refine ⟨fun hs hnamed => ?_, fun hnot h => ?_⟩
    · exact step_of_hazard hj (State.hazard_eq_loadUse (not_delaySlotHazard hds) (hhazard.mpr ⟨hnamed, hs⟩))
    · obtain ⟨_, j', hj', hl⟩ := loadHazard_of_step_fault h
      cases hj.unique hj'
      obtain ⟨hnamed, hs⟩ := hhazard.mp hl
      obtain hs' | ⟨hreads, hwrites⟩ := hnot
      · cases hs.symm.trans hs'
      · exact hnamed.elim hreads hwrites
  · intro s hrule h
    obtain ⟨_, i, -, hl⟩ := loadHazard_of_step_fault h
    rw [State.loadHazard, hrule] at hl
    cases hl

theorem State.guardHazard_eq_true :
    s.guardHazard i = true ↔ s.params.hiloRule = .fault ∧ 0 < s.hlguard.val ∧ writesHiLo i = true := by
  unfold State.guardHazard
  cases s.params.hiloRule <;> simp

/-- MFHI and MFLO fill the guard (R21). -/
theorem exec_move (hi : readsHiLo i = true) (h : exec i s = .next t) :
    t.ds = false ∧ t.ldreg = none ∧ t.hlguard.val = 2 := by
  cases i <;> cases hi <;> cases h <;> exact ⟨rfl, rfl, rfl⟩

/-- Every other instruction lowers it, trap entry to 0 (R21, R205). -/
theorem exec_hlguard_le (hi : readsHiLo i = false) (h : exec i s = .next t) : t.hlguard.val ≤ s.hlguard.val - 1 := by
  by_cases hr : ∃ c, Raises s i c
  · obtain ⟨c, hr⟩ := hr
    rw [(traps_of_raises h hr).hlguard]
    omega
  · rw [(exec_control h (not_exists.mp hr)).hlguard, State.guardBehind, hi]
    exact le_rfl

/-- A writer of HI and LO is no branch or jump. -/
theorem not_isTransfer_of_writesHiLo (h : writesHiLo i = true) : isTransfer i = false := by
  cases i with
  | mult | multu | div | divu => rfl
  | _ => cases h

/-- A writer of HI and LO under the guard faults, unless the load-use check comes first. -/
theorem step_of_guard (hj : Fetches s w i) (hrule : s.params.hiloRule = .fault) (hguard : 0 < s.hlguard.val)
    (hl : s.loadHazard i = false) (hi : writesHiLo i = true) : step s = .fault .hiLoHazard := by
  have hd : ¬ s.delaySlotHazard i = true := by
    rw [State.delaySlotHazard_eq_true, not_isTransfer_of_writesHiLo hi]
    simp
  exact step_of_hazard hj (State.hazard_eq_hiLo hd hl (State.guardHazard_eq_true.mpr ⟨hrule, hguard, hi⟩))

/-- Settles O51: MFHI and MFLO fill the guard, and every other instruction lowers it by one or clears it. -/
theorem hiLoRule : Obligations.HiLoRule := by
  refine ⟨?_, ?_, ?_, ?_⟩
  · intro s u w w' i j hi hmove hsu hj hrule hwriter
    obtain ⟨-, hldreg, hguard⟩ := exec_move hmove (exec_of_step hi hsu)
    exact step_of_guard hj hrule (by omega) (State.loadHazard_of_none hldreg) hwriter
  · intro s u v w w' w'' i j k hi hmove hsu hj hr huv hk hrule hl hwriter
    obtain ⟨-, -, hguard⟩ := exec_move hmove (exec_of_step hi hsu)
    have hguard' := (exec_control (exec_of_step hj huv) hr).hlguard
    refine step_of_guard hk hrule ?_ hl hwriter
    rw [hguard', State.guardBehind]
    split
    · decide
    · rw [guardAfter_val]
      omega
  · intro s u v x w w' w'' i j k hi hsu hj hjmove huv hk hkmove hvx h
    have hv := exec_hlguard_le hjmove (exec_of_step hj huv)
    have hx := exec_hlguard_le hkmove (exec_of_step hk hvx)
    obtain ⟨_, _, -, hg⟩ := guardHazard_of_step_fault h
    obtain ⟨-, hpos, -⟩ := State.guardHazard_eq_true.mp hg
    omega
  · intro s hrule h
    obtain ⟨_, _, -, hg⟩ := guardHazard_of_step_fault h
    obtain ⟨hrule', -⟩ := State.guardHazard_eq_true.mp hg
    cases hrule.symm.trans hrule'

end Sys2Proof.Machine
end
